-- ==== Sys2Proof/Word.lean ====
section
/-! DEFINITION. The two word widths of WSC: the byte of the wire frames and buffers, and the 32-bit
register. Every quantity is unsigned (spec/00_scope.md R13, R14). -/

namespace Sys2Proof

/-- One byte of a frame or buffer, bit 7 the most significant (R13). -/
abbrev Byte := BitVec 8

/-- One 32-bit register value, host address or command word (R22, R50, R70). -/
abbrev Word := BitVec 32

end Sys2Proof
end

