-- ==== Sys2Proof/Config.lean ====
section
/-! DEFINITION. The implementation parameters of one WSC instance (spec/00_scope.md R8 to R11), the
constraints the spec puts on them, the reference configuration, and the free values: the buffer bytes
whose value the spec leaves open. N_INST (R12) is the length of a `System` (Machine/System.lean). -/

namespace Sys2Proof

/-- `LEN_MODE` (R9): how the decoder treats the 7-bit length values 126 and 127. -/
inductive LenMode where
  | literal
  | rfc
deriving DecidableEq, Repr

/-- The parameters of one instance. They are fixed data of the instance: `State.cfg` carries them, no
command and no reset changes them (R38, R270), and every claim over all states holds for all of them. -/
structure Config where
  /-- `BUF_CAP` (R8): the capacity in bytes of each buffer. -/
  bufCap    : Nat
  /-- `LEN_MODE` (R9). -/
  lenMode   : LenMode
  /-- `CHECK_MASK` (R10): true is 1. -/
  checkMask : Bool
  /-- `GREETING` (R11). -/
  greeting  : List Byte
deriving DecidableEq, Repr

/-- The constraints of R8 and R11: `|GREETING| <= 125` and
`max(127, 132 + |GREETING|) <= BUF_CAP <= 65536`. -/
def Config.wf (c : Config) : Bool :=
  decide (c.greeting.length ≤ 125) && decide (132 + c.greeting.length ≤ c.bufCap) &&
    decide (127 ≤ c.bufCap) && decide (c.bufCap ≤ 65536)

/-- The reference configuration of R8 to R11 (spec/92_eei_decisions.md D42): BUF_CAP 4096, RFC,
CHECK_MASK 1, GREETING "Hello". Test data of the spec, no claim about a product (log entry 1). -/
def Config.reference : Config where
  bufCap    := 4096
  lenMode   := .rfc
  checkMask := true
  greeting  := [0x48, 0x65, 0x6C, 0x6C, 0x6F]

/-- FREE VALUE (spec/93_implementation_defined.md U8, U9; log entry 3). What a host read of `OUT[i]`
gives when no command has written that byte since the `epoch`-th reset: any byte.
DESIGN CHOICE, unsafe (log entry 3): its arguments are the epoch and the index only. Two instances, or
two power-ups of one, with the same epoch therefore read the same unwritten byte at the same index, where
the spec says any value for each (R12, R39, R58, R252, R270). -/
opaque Config.freeOutByte (epoch i : Nat) : Byte

/-- FREE VALUE (R34, R274; log entry 4). What a host read of `IN[i]` gives when no host write has set
that byte since the `epoch`-th reset: any byte.
DESIGN CHOICE, unsafe (log entry 4): as for `Config.freeOutByte`, its arguments are the epoch and the
index only, so two instances or power-ups with the same epoch read the same unwritten byte. -/
opaque Config.freeInByte (epoch i : Nat) : Byte

end Sys2Proof
end

