-- ==== Sys2Proof/Machine/State.lean ====
section
/-! DEFINITION. The state of one WSC instance with its host agent (spec/10_state.md), the two reasons a
step can stop, and the state after reset (spec/70_reset_and_hazards.md R270). -/

namespace Sys2Proof.Machine

open Sys2Proof

/-- The values STATUS.RESULT takes (spec/60_exceptions.md R240); their codes are `Result.code`. The
reserved codes 11 to 15 are never written, so they are no value here. -/
inductive Result where
  | idle
  | ok
  | closeSignal
  | ignored
  | truncatedFrame
  | payloadTooLong
  | missingKey
  | unmaskedClientFrame
  | badState
  | badCommand
  | badLength
deriving DecidableEq, Repr

/-- SESSION.STATE (R23, R200); the value 3 is never held, so it is no value here. -/
inductive Session where
  | handshaking
  | opened
  | closed
deriving DecidableEq, Repr

/-- The registers of the map of R22. -/
inductive Reg where
  | cmd | status | session | inLen | outLen | auxLen
  | decOpcode | decMaskKey | decLenLo | decLenHi | cfg | bufCap
deriving DecidableEq, Repr

/-- One input from outside (spec/00_scope.md R15, R270): a host access of `n` bytes, or the reset
input. `v` is the value written; a 1-byte write carries its low byte. -/
inductive HostAccess where
  | read  (addr : Word) (n : Nat)
  | write (addr : Word) (n : Nat) (v : Word)
  | reset
deriving DecidableEq, Repr

/-- The contents of a buffer: the bytes written since reset, as (index, byte) pairs with strictly
rising indexes. An unlisted index holds no value (R34, R35; log entry 2). -/
abbrev Memory := List Host.Cell

/-- The state. `cfg` to `outBuf` are WSC's own (R38); `epoch` is the model's own counter behind the
free values (log entry 3); `program` and `readData` are the host agent's side of the port (R21, R95;
log entry 5). -/
structure State where
  /-- The parameters of this instance (R8 to R11). CFG and BUFCAP read them (R32, R33). -/
  cfg        : Config
  /-- STATUS.RESULT, 4 bits (R24). -/
  status     : Result
  /-- SESSION.STATE, 2 bits (R23). -/
  session    : Session
  /-- IN_LEN (R26). -/
  inLen      : Word
  /-- OUT_LEN (R27). -/
  outLen     : Word
  /-- AUX_LEN (R28). -/
  auxLen     : Word
  /-- DEC_OPCODE.OPC, 4 bits (R29). -/
  decOpcode  : BitVec 4
  /-- DEC_MASKKEY (R30). -/
  decMaskKey : Word
  /-- DEC_LEN_LO (R31). -/
  decLenLo   : Word
  /-- DEC_LEN_HI (R31). -/
  decLenHi   : Word
  /-- IN_BUF (R34): the bytes the host has written since reset. -/
  inBuf      : Memory
  /-- OUT_BUF (R35): the bytes the commands have written since reset. -/
  outBuf     : Memory
  /-- The model's own: how many resets have been taken since power-up. -/
  epoch      : Nat
  /-- The host agent's accesses still to come, first one first (R58, R95). -/
  program    : List HostAccess
  /-- The host agent's side: the data the port returned to the last read. -/
  readData   : Word
deriving DecidableEq, Repr

/-- Why the machine stops. -/
inductive Fault where
  /-- SAFE. A command read `IN[i]`, which no host write has set since reset (R274; spec U7, D44: the
  model's treatment is a fault). Raised by every operation that reads IN_BUF for a command. -/
  | unwrittenInput (i : Nat)
  /-- SAFE. The host made an access of `n` bytes at `addr` that R51 does not allow (R53; spec U11: the
  model gives it no step, the host is stuck). Raised by the host port only. -/
  | hostProtocol (addr : Word) (n : Nat)
deriving DecidableEq, Repr

/-- Why an instruction has no meaning in the model. -/
inductive Refusal where
  /-- SAFE. Raised by an arm of `exec` that has no meaning yet; no arm is left so. -/
  | notModelled (mnemonic : String)
deriving DecidableEq, Repr

/-- An instance with parameters `c` fresh from its first reset: every register at its value of R22,
nothing written in either buffer (R270, D27). -/
def State.resetOf (c : Config) : State where
  cfg        := c
  status     := .idle
  session    := .handshaking
  inLen      := 0
  outLen     := 0
  auxLen     := 0
  decOpcode  := 0
  decMaskKey := 0
  decLenLo   := 0
  decLenHi   := 0
  inBuf      := []
  outBuf     := []
  epoch      := 0
  program    := []
  readData   := 0

/-- The state after reset, in the reference configuration (D42; log entry 1), with no host access
pending: WSC performs nothing until the host writes CMD (R271). -/
def State.reset : State := State.resetOf Config.reference

end Sys2Proof.Machine
end

