-- ==== Sys2Proof/Machine/Ops.lean ====
section
/-! DEFINITION. The shared operations: the buffers, reading the input, ending a command
(spec/00_scope.md R15, R16; spec/60_exceptions.md R242), and reset (spec/70_reset_and_hazards.md R270).
WSC has no traps (R241): an error is a result code, so `State.finishError` stands where another machine
takes an exception, and there is no return from one (R246). -/

namespace Sys2Proof.Machine

open Sys2Proof

/-- What an instruction or a step answers. -/
abbrev StepResult := Host.Outcome State Fault Refusal

/-! ### Buffers -/

/-- The byte at index `a`; `none` where nothing was written since reset. -/
def Memory.read : Memory → Nat → Option Byte
  | [], _ => none
  | (k, b) :: m, a => if k = a then some b else Memory.read m a

/-- The buffer with byte `b` at index `a`. -/
def Memory.write : Memory → Nat → Byte → Memory
  | [], a, b => [(a, b)]
  | (k, c) :: m, a, b =>
    if a < k then (a, b) :: (k, c) :: m
    else if a = k then (a, b) :: m
    else (k, c) :: Memory.write m a b

/-- The buffer with the bytes `bs` at indexes `a`, `a + 1`, ... (R15: the bytes beyond are unchanged). -/
def Memory.writeBytes : Memory → Nat → List Byte → Memory
  | m, _, [] => m
  | m, a, b :: bs => Memory.writeBytes (Memory.write m a b) (a + 1) bs

/-- The canonical form: strictly rising indexes. (An unlisted index reads as no value, so no entry can
equal what an unlisted index reads as.) -/
abbrev Memory.wf (m : Memory) : Prop := (m.map Prod.fst).Pairwise (· < ·)

/-- Every listed index lies below `cap`: a buffer holds `BUF_CAP` bytes (R34, R35). -/
abbrev Memory.below (m : Memory) (cap : Nat) : Prop := ∀ c ∈ m, c.1 < cap

/-! ### Big-endian bytes (R54) -/

/-- The natural number that the bytes give, first byte most significant (R54 item 2, R87). -/
def beNat (bs : List Byte) : Nat := bs.foldl (fun acc b => acc * 256 + b.toNat) 0

/-- `BE32(x)`: the 4 bytes of `x`, most significant first (R104). -/
def be32 (x : Word) : List Byte :=
  [x.extractLsb' 24 8, x.extractLsb' 16 8, x.extractLsb' 8 8, x.extractLsb' 0 8]

/-- `BE64(n)`: the 8-byte big-endian encoding of `n` (R101). -/
def be64 (n : Nat) : List Byte :=
  [7, 6, 5, 4, 3, 2, 1, 0].map fun j => BitVec.ofNat 8 (n / 256 ^ j)

/-! ### Reading the input (R57, R274) -/

/-- A command's read of `IN[i]`: a fault where no host write has set the byte since reset (U7). -/
def State.readIn (s : State) (i : Nat) : Except Fault Byte :=
  match Memory.read s.inBuf i with
  | some b => .ok b
  | none   => .error (.unwrittenInput i)

/-- A command's read of `IN[a..a+n)`, in rising order. -/
def State.readInSlice (s : State) : Nat → Nat → Except Fault (List Byte)
  | _, 0 => .ok []
  | a, n + 1 =>
    match s.readIn a with
    | .error e => .error e
    | .ok b =>
      match State.readInSlice s (a + 1) n with
      | .error e => .error e
      | .ok bs => .ok (b :: bs)

/-- The whole input `IN[0..IN_LEN)`. -/
def State.readInput (s : State) : Except Fault (List Byte) := s.readInSlice 0 s.inLen.toNat

/-- Continue with the value of an input read, or stop with its fault. -/
def withRead {α : Type} (r : Except Fault α) (k : α → StepResult) : StepResult :=
  match r with
  | .ok a => k a
  | .error e => .fault e

/-! ### Ending a command (R16, R242) -/

/-- `finish` with a result other than OK: STATUS, and OUT_LEN and AUX_LEN to 0; OUT_BUF is unchanged
(R242). -/
def State.finishError (s : State) (r : Result) : State :=
  { s with status := r, outLen := 0, auxLen := 0 }

/-- `finish(OK)` with output `bytes`: OUT, OUT_LEN, AUX_LEN and STATUS (R107, R142, R205). -/
def State.finishOutput (s : State) (bytes : List Byte) (aux : Word) : State :=
  { s with
    status := .ok
    outBuf := Memory.writeBytes s.outBuf 0 bytes
    outLen := BitVec.ofNat 32 bytes.length
    auxLen := aux }

/-- The pre-check of R73 and R74: BAD_LENGTH if `IN_LEN > BUF_CAP`, before any byte of IN_BUF is
read. -/
def checkLength (s : State) (k : StepResult) : StepResult :=
  if s.cfg.bufCap < s.inLen.toNat then .next (s.finishError .badLength) else k

/-! ### Reset (R270) -/

/-- The reset input, taken between commands: every register at its reset value of R22, both buffers
unspecified (nothing counts as written; a new epoch of free values, D27), the parameters unchanged. The
host agent's side stays. -/
def State.applyReset (s : State) : State :=
  { State.resetOf s.cfg with epoch := s.epoch + 1, program := s.program, readData := s.readData }

end Sys2Proof.Machine
end

