-- ==== Sys2Proof/Machine/Flags.lean ====
section
/-! DEFINITION. WSC has no flags register (spec/10_state.md R36); what stands for one is STATUS.RESULT.
This file gives the result codes (spec/60_exceptions.md R240), the session codes (R23), the words the
status registers read as (R22 to R33), and which results close an open session (R215). -/

namespace Sys2Proof.Machine

open Sys2Proof

/-- The code of a result in STATUS[3:0] (R240). -/
def Result.code : Result → BitVec 4
  | .idle                => 0
  | .ok                  => 1
  | .closeSignal         => 2
  | .ignored             => 3
  | .truncatedFrame      => 4
  | .payloadTooLong      => 5
  | .missingKey          => 6
  | .unmaskedClientFrame => 7
  | .badState            => 8
  | .badCommand          => 9
  | .badLength           => 10

/-- The code of a session state in SESSION[1:0] (R23). -/
def Session.code : Session → BitVec 2
  | .handshaking => 0
  | .opened      => 1
  | .closed      => 2

/-- The results on which FEED closes the session (R200, R215). -/
def Result.closesSession : Result → Bool
  | .closeSignal | .truncatedFrame | .unmaskedClientFrame => true
  | .idle | .ok | .ignored | .payloadTooLong | .missingKey | .badState | .badCommand
  | .badLength => false

/-- Bit 0 of CFG (R32): 0 LITERAL, 1 RFC. -/
def lenModeBit : LenMode → BitVec 1
  | .literal => 0
  | .rfc     => 1

/-- CFG: LEN_MODE in bit 0, CHECK_MASK in bit 1, bits [31:2] hardwired 0 (R32). -/
def cfgWord (c : Config) : Word := (BitVec.ofBool c.checkMask ++ lenModeBit c.lenMode).setWidth 32

/-- What a host read of a register returns (R22 to R33): CMD reads 0, the hardwired bits read 0. -/
def State.readReg (s : State) : Reg → Word
  | .cmd        => 0
  | .status     => s.status.code.setWidth 32
  | .session    => s.session.code.setWidth 32
  | .inLen      => s.inLen
  | .outLen     => s.outLen
  | .auxLen     => s.auxLen
  | .decOpcode  => s.decOpcode.setWidth 32
  | .decMaskKey => s.decMaskKey
  | .decLenLo   => s.decLenLo
  | .decLenHi   => s.decLenHi
  | .cfg        => cfgWord s.cfg
  | .bufCap     => BitVec.ofNat 32 s.cfg.bufCap

end Sys2Proof.Machine
end

