-- ==== Sys2Proof/Syntax.lean ====
section
/-! DEFINITION. The instructions: one constructor per row of spec/opcode_table.json. The table has two
levels (spec/30_encoding.md): command words written to CMD (R70, R72), and wire frames, that is byte 0
of an incoming frame, one row per opcode nibble (R80, R85), and the header of the one outgoing frame
(R82). -/

namespace Sys2Proof

/-- One instruction. `fin` and `rsv` are the FIN and RSV bits of a frame's byte 0 (R80). -/
inductive Instr where
  /-- NOP (R225). -/
  | nop
  /-- SIGN (R107). -/
  | sign
  /-- ENCODE (R142). -/
  | encode
  /-- DECODE (R176). -/
  | decode
  /-- UPGRADE (R205); `kp` is the key-present bit (R71). -/
  | upgrade (kp : Bool)
  /-- FEED (R215). -/
  | feed
  /-- DISCONNECT (R222). -/
  | disconnect
  /-- RESERVED_CMD: any other command word, field by field (R72). -/
  | reservedCmd (op : BitVec 4) (rsvdLo : BitVec 4) (kp : Bool) (rsvdHi : BitVec 23)
  /-- TEXT: an incoming frame with opcode 0x1 (R160 to R172). -/
  | text (fin : Bool) (rsv : BitVec 3)
  /-- CLOSE: an incoming frame with opcode 0x8 (R163). -/
  | close (fin : Bool) (rsv : BitVec 3)
  /-- IGNORED_0x0 (R164). -/
  | ignored0 (fin : Bool) (rsv : BitVec 3)
  /-- IGNORED_0x2 (R164). -/
  | ignored2 (fin : Bool) (rsv : BitVec 3)
  /-- IGNORED_0x3 (R164). -/
  | ignored3 (fin : Bool) (rsv : BitVec 3)
  /-- IGNORED_0x4 (R164). -/
  | ignored4 (fin : Bool) (rsv : BitVec 3)
  /-- IGNORED_0x5 (R164). -/
  | ignored5 (fin : Bool) (rsv : BitVec 3)
  /-- IGNORED_0x6 (R164). -/
  | ignored6 (fin : Bool) (rsv : BitVec 3)
  /-- IGNORED_0x7 (R164). -/
  | ignored7 (fin : Bool) (rsv : BitVec 3)
  /-- IGNORED_0x9 (R164). -/
  | ignored9 (fin : Bool) (rsv : BitVec 3)
  /-- IGNORED_0xA (R164). -/
  | ignoredA (fin : Bool) (rsv : BitVec 3)
  /-- IGNORED_0xB (R164). -/
  | ignoredB (fin : Bool) (rsv : BitVec 3)
  /-- IGNORED_0xC (R164). -/
  | ignoredC (fin : Bool) (rsv : BitVec 3)
  /-- IGNORED_0xD (R164). -/
  | ignoredD (fin : Bool) (rsv : BitVec 3)
  /-- IGNORED_0xE (R164). -/
  | ignoredE (fin : Bool) (rsv : BitVec 3)
  /-- IGNORED_0xF (R164). -/
  | ignoredF (fin : Bool) (rsv : BitVec 3)
  /-- TEXT_OUT: the outgoing frame header with LEN7 = `len7` (R82). -/
  | textOut (len7 : BitVec 7)
deriving DecidableEq, Repr

end Sys2Proof
end

