-- ==== Sys2Proof/WellFormed.lean ====
section
/-! DEFINITION. Which terms of `Instr` are instructions of the table: a RESERVED_CMD must be reserved
(spec/30_encoding.md R72), and LEN7 of TEXT_OUT is at most 125 (R82). Every other constructor is well
formed with every operand. -/

namespace Sys2Proof

/-- The condition of R72 on the fields of a command word: a reserved bit set, a reserved OP, or KP = 1
with an OP other than 4. -/
def reservedFields (op rsvdLo : BitVec 4) (kp : Bool) (rsvdHi : BitVec 23) : Bool :=
  decide (rsvdHi ≠ 0) || decide (rsvdLo ≠ 0) || decide (7 ≤ op.toNat) || (kp && decide (op ≠ 4))

/-- The well-formedness check of an instruction. -/
def Instr.wf : Instr → Bool
  | .nop | .sign | .encode | .decode | .upgrade _ | .feed | .disconnect => true
  | .reservedCmd op lo kp hi => reservedFields op lo kp hi
  | .text _ _ | .close _ _ => true
  | .ignored0 _ _ | .ignored2 _ _ | .ignored3 _ _ | .ignored4 _ _ | .ignored5 _ _ | .ignored6 _ _
  | .ignored7 _ _ | .ignored9 _ _ | .ignoredA _ _ | .ignoredB _ _ | .ignoredC _ _ | .ignoredD _ _
  | .ignoredE _ _ | .ignoredF _ _ => true
  | .textOut l => decide (l.toNat ≤ 125)

end Sys2Proof
end

