-- ==== Sys2Proof/Decode.lean ====
section
/-! DEFINITION. The decoder and the encoder of both encoding levels (spec/30_encoding.md), and the
field extraction of the wire bytes. Command words decode totally: a word that is no command is
RESERVED_CMD (R72). A frame's byte 0 decodes totally by its opcode nibble (R85). An outgoing header is
rejected by name unless it has the form of R82. -/

namespace Sys2Proof

/-- The encoded forms of the opcode table: a word written to CMD (R70), byte 0 of an incoming frame
(R80), and bytes 0 and 1 of an outgoing frame (R82). -/
inductive Code where
  | command (w : Word)
  | frameByte (b : Byte)
  | outHeader (b0 b1 : Byte)
deriving DecidableEq, Repr

/-- Why two bytes are no outgoing header of R82. -/
inductive DecodeError where
  /-- Byte 0 is not 0x81. -/
  | notTextOut
  /-- MASK is set: server frames are never masked (R82). -/
  | outMaskSet
  /-- LEN7 is 126 or 127, which the encoder never sends (R141). -/
  | outLenMarker
deriving DecidableEq, Repr

/-! ### Fields of the wire bytes (R80, R81, R87) -/

/-- OPCODE is `IN[0] & 0x0F` (R87, R162). -/
def opcodeNibble (b : Byte) : BitVec 4 := b.extractLsb' 0 4

/-- FIN is bit 7 of byte 0 (R80). -/
def finBit (b : Byte) : Bool := b.getLsbD 7

/-- RSV1 to RSV3 are bits 6 to 4 of byte 0 (R80). -/
def rsvBits (b : Byte) : BitVec 3 := b.extractLsb' 4 3

/-- LEN7 is `IN[1] & 0x7F` (R87). -/
def len7Field (b : Byte) : BitVec 7 := b.extractLsb' 0 7

/-- MASK is `IN[1] >> 7` (R87). -/
def maskBit (b : Byte) : Bool := b.getLsbD 7

/-- Byte 0 of a frame from its fields (R80). -/
def frameByte0 (fin : Bool) (rsv : BitVec 3) (opcode : BitVec 4) : Byte :=
  BitVec.ofBool fin ++ rsv ++ opcode

/-- A command word from its fields (R70). -/
def commandWord (op rsvdLo : BitVec 4) (kp : Bool) (rsvdHi : BitVec 23) : Word :=
  rsvdHi ++ BitVec.ofBool kp ++ rsvdLo ++ op

/-! ### Decoding -/

/-- The command of OP with all reserved fields 0 (R70); `none` for OP 7 to 15 and for KP = 1 with an
OP other than 4 (R72). -/
def decodeOp (op : BitVec 4) (kp : Bool) : Option Instr :=
  match op.toNat, kp with
  | 0, false => some .nop
  | 1, false => some .sign
  | 2, false => some .encode
  | 3, false => some .decode
  | 4, kp    => some (.upgrade kp)
  | 5, false => some .feed
  | 6, false => some .disconnect
  | _, _     => none

/-- The instruction of a word written to CMD (R70, R72, R74). Total: every 32-bit word has one. -/
def decodeCommandWord (w : Word) : Instr :=
  let op := w.extractLsb' 0 4
  let lo := w.extractLsb' 4 4
  let kp := w.getLsbD 8
  let hi := w.extractLsb' 9 23
  if hi = 0 ∧ lo = 0 then (decodeOp op kp).getD (.reservedCmd op lo kp hi)
  else .reservedCmd op lo kp hi

/-- The instruction of an incoming frame's byte 0, by its opcode nibble (R85). Total. -/
def decodeFrameByte (b : Byte) : Instr :=
  let fin := finBit b
  let rsv := rsvBits b
  match (opcodeNibble b).toNat with
  | 0x0 => .ignored0 fin rsv
  | 0x1 => .text fin rsv
  | 0x2 => .ignored2 fin rsv
  | 0x3 => .ignored3 fin rsv
  | 0x4 => .ignored4 fin rsv
  | 0x5 => .ignored5 fin rsv
  | 0x6 => .ignored6 fin rsv
  | 0x7 => .ignored7 fin rsv
  | 0x8 => .close fin rsv
  | 0x9 => .ignored9 fin rsv
  | 0xA => .ignoredA fin rsv
  | 0xB => .ignoredB fin rsv
  | 0xC => .ignoredC fin rsv
  | 0xD => .ignoredD fin rsv
  | 0xE => .ignoredE fin rsv
  | _   => .ignoredF fin rsv

/-- The instruction of an outgoing frame's bytes 0 and 1 (R82, R141). -/
def decodeOutHeader (b0 b1 : Byte) : Except DecodeError Instr :=
  if b0 ≠ 0x81 then .error .notTextOut
  else if maskBit b1 then .error .outMaskSet
  else if 125 < (len7Field b1).toNat then .error .outLenMarker
  else .ok (.textOut (len7Field b1))

/-- The decoder: total, rejecting by name. -/
def decode : Code → Except DecodeError Instr
  | .command w       => .ok (decodeCommandWord w)
  | .frameByte b     => .ok (decodeFrameByte b)
  | .outHeader b0 b1 => decodeOutHeader b0 b1

/-! ### Encoding -/

/-- The encoded form of an instruction (R70, R72, R80, R82, R85). -/
def encode : Instr → Code
  | .nop        => .command (commandWord 0 0 false 0)
  | .sign       => .command (commandWord 1 0 false 0)
  | .encode     => .command (commandWord 2 0 false 0)
  | .decode     => .command (commandWord 3 0 false 0)
  | .upgrade kp => .command (commandWord 4 0 kp 0)
  | .feed       => .command (commandWord 5 0 false 0)
  | .disconnect => .command (commandWord 6 0 false 0)
  | .reservedCmd op lo kp hi => .command (commandWord op lo kp hi)
  | .ignored0 fin rsv => .frameByte (frameByte0 fin rsv 0x0)
  | .text     fin rsv => .frameByte (frameByte0 fin rsv 0x1)
  | .ignored2 fin rsv => .frameByte (frameByte0 fin rsv 0x2)
  | .ignored3 fin rsv => .frameByte (frameByte0 fin rsv 0x3)
  | .ignored4 fin rsv => .frameByte (frameByte0 fin rsv 0x4)
  | .ignored5 fin rsv => .frameByte (frameByte0 fin rsv 0x5)
  | .ignored6 fin rsv => .frameByte (frameByte0 fin rsv 0x6)
  | .ignored7 fin rsv => .frameByte (frameByte0 fin rsv 0x7)
  | .close    fin rsv => .frameByte (frameByte0 fin rsv 0x8)
  | .ignored9 fin rsv => .frameByte (frameByte0 fin rsv 0x9)
  | .ignoredA fin rsv => .frameByte (frameByte0 fin rsv 0xA)
  | .ignoredB fin rsv => .frameByte (frameByte0 fin rsv 0xB)
  | .ignoredC fin rsv => .frameByte (frameByte0 fin rsv 0xC)
  | .ignoredD fin rsv => .frameByte (frameByte0 fin rsv 0xD)
  | .ignoredE fin rsv => .frameByte (frameByte0 fin rsv 0xE)
  | .ignoredF fin rsv => .frameByte (frameByte0 fin rsv 0xF)
  | .textOut l        => .outHeader 0x81 (BitVec.ofBool false ++ l)

/-! ### The opcode table's numbering of the bits -/

/-- The code of an instruction whose bits are `w`, numbered as spec/opcode_table.json numbers them: a
32-bit command word, an 8-bit frame byte 0, or bytes 0 and 1 of an outgoing frame read as a big-endian
16-bit value (the TEXT_OUT row's note). -/
def tableCode (nbits w : Nat) : Option Code :=
  if 2 ^ nbits ≤ w then none
  else match nbits with
    | 32 => some (.command (BitVec.ofNat 32 w))
    | 8  => some (.frameByte (BitVec.ofNat 8 w))
    | 16 => some (.outHeader (BitVec.ofNat 8 (w / 256)) (BitVec.ofNat 8 w))
    | _  => none

/-- What the decoder reads from a row's word of the opcode table; `none` where it refuses. -/
def decodeTableWord (nbits w : Nat) : Option Instr :=
  match tableCode nbits w with
  | none   => none
  | some c => (decode c).toOption

end Sys2Proof
end

