-- ==== Sys2Proof/Machine/Operands.lean ====
section
/-! DEFINITION. The operands of the decoder: the length forms, the mask key, and the unmasked payload
(spec/30_encoding.md R83, R84, R87; spec/42_decoder.md R165 to R171). -/

namespace Sys2Proof.Machine

open Sys2Proof

/-- The header form that LEN_MODE and LEN7 select (R83, R84, R167, R168). -/
inductive LenForm where
  | short
  | ext16
  | ext64
deriving DecidableEq, Repr

/-- R83: LITERAL has one form for every LEN7. R84: RFC has three. -/
def lenForm (mode : LenMode) (len7 : BitVec 7) : LenForm :=
  match mode with
  | .literal => .short
  | .rfc => if len7.toNat ≤ 125 then .short else if len7.toNat = 126 then .ext16 else .ext64

/-- The minimum header bytes of a form (R84, R86). -/
def LenForm.headerBytes : LenForm → Nat
  | .short => 6
  | .ext16 => 8
  | .ext64 => 14

/-- The mask-key offset `k` of a form (R84); the payload offset is `k + 4`. -/
def LenForm.keyOffset : LenForm → Nat
  | .short => 2
  | .ext16 => 4
  | .ext64 => 10

/-- The number of extended-length bytes, from offset 2 on (R84). -/
def LenForm.extBytes : LenForm → Nat
  | .short => 0
  | .ext16 => 2
  | .ext64 => 8

/-- The payload length `L`: LEN7, or the big-endian number in the extended-length bytes (R87). -/
def LenForm.length (f : LenForm) (len7 : BitVec 7) (ext : List Byte) : BitVec 64 :=
  match f with
  | .short => len7.setWidth 64
  | .ext16 => BitVec.ofNat 64 (beNat ext)
  | .ext64 => BitVec.ofNat 64 (beNat ext)

/-- The mask key in wire order (R54 item 3, R169). -/
structure MaskKey where
  k0 : Byte
  k1 : Byte
  k2 : Byte
  k3 : Byte
deriving DecidableEq, Repr

/-- `maskKey[i mod 4]` (R171). -/
def MaskKey.byte (key : MaskKey) (i : Nat) : Byte :=
  match i % 4 with
  | 0 => key.k0
  | 1 => key.k1
  | 2 => key.k2
  | _ => key.k3

/-- The packing of DEC_MASKKEY: `maskKey[0]` in bits [31:24] (R30). -/
def MaskKey.toWord (key : MaskKey) : Word := key.k0 ++ key.k1 ++ key.k2 ++ key.k3

/-- The mask key `IN[k..k+4)` (R169). -/
def State.readKey (s : State) (k : Nat) : Except Fault MaskKey := do
  let k0 ← s.readIn k
  let k1 ← s.readIn (k + 1)
  let k2 ← s.readIn (k + 2)
  let k3 ← s.readIn (k + 3)
  return ⟨k0, k1, k2, k3⟩

/-- The rolling XOR of R171 on bytes whose first one is payload byte `i`. -/
def unmaskFrom (key : MaskKey) : Nat → List Byte → List Byte
  | _, [] => []
  | i, b :: bs => (b ^^^ key.byte i) :: unmaskFrom key (i + 1) bs

/-- `pay[i] = IN[p+i] ^ maskKey[i mod 4]`, i counted from the first payload byte (R171). -/
def unmask (key : MaskKey) (bs : List Byte) : List Byte := unmaskFrom key 0 bs

/-- What `DecodeCore` returns (R160). Fields that a return does not name are 0 or empty. -/
structure Decoded where
  res : Result
  opc : BitVec 4
  len : BitVec 64 := 0
  key : MaskKey := ⟨0, 0, 0, 0⟩
  pay : List Byte := []
deriving DecidableEq, Repr

end Sys2Proof.Machine
end

