-- ==== Sys2Proof/Machine/Decoder.lean ====
section
/-! DEFINITION. The FrameDecoder (spec/42_decoder.md). DecodeCore (R160) reads byte 0 of the chunk,
which selects one of the 16 wire instructions by its opcode nibble; each wire instruction is what
DecodeCore does from there on, with the register writes of R175 and `finish`. DECODE fetches byte 0 and
runs its wire instruction; FEED (Machine/Session.lean) runs the same and then moves the session. -/

namespace Sys2Proof.Machine

open Sys2Proof

/-- A return of DecodeCore that names only a result and an opcode (R160). -/
def Decoded.signal (res : Result) (opc : BitVec 4) : Decoded := { res := res, opc := opc }

/-- The register and buffer writes of R175, then `finish` (R176). -/
def State.finishDecode (s : State) (d : Decoded) : State :=
  if d.res = .ok then
    { s with
      status     := .ok
      decOpcode  := d.opc
      outBuf     := Memory.writeBytes s.outBuf 0 d.pay
      outLen     := d.len.setWidth 32
      auxLen     := 0
      decLenHi   := d.len.extractLsb' 32 32
      decLenLo   := d.len.extractLsb' 0 32
      decMaskKey := d.key.toWord }
  else
    { s with
      status     := d.res
      decOpcode  := d.opc
      outLen     := 0
      auxLen     := 0
      decLenHi   := 0
      decLenLo   := 0
      decMaskKey := 0 }

/-- DecodeCore from the mask key on, for a frame whose header form `f` and length `len` are known and
whose header lies in the chunk (R169 to R172). -/
def decodePayload (s : State) (n : Nat) (f : LenForm) (len : BitVec 64) : Except Fault Decoded := do
  let key ← s.readKey f.keyOffset
  let p := f.keyOffset + 4
  if n - p < len.toNat then return Decoded.signal .truncatedFrame 0x1
  else
    let masked ← s.readInSlice p len.toNat
    return { res := .ok, opc := 0x1, len := len, key := key, pay := unmask key masked }

/-- DecodeCore for a Text frame, from byte 1 on (R165 to R172), in a chunk of `n` bytes. -/
def decodeText (s : State) (n : Nat) : Except Fault Decoded := do
  let b1 ← s.readIn 1
  if s.cfg.checkMask && !maskBit b1 then return Decoded.signal .unmaskedClientFrame 0x1
  else
    let f := lenForm s.cfg.lenMode (len7Field b1)
    if n < f.headerBytes then return Decoded.signal .truncatedFrame 0x1
    else
      let ext ← s.readInSlice 2 f.extBytes
      decodePayload s n f (f.length (len7Field b1) ext)

/-- What every decode does before a frame byte counts: BAD_LENGTH (R73), and TRUNCATED_FRAME with
opcode 0 for a chunk shorter than 6 bytes (R161); then `k`. -/
def withChunk (s : State) (k : StepResult) : StepResult :=
  checkLength s <|
    if s.inLen.toNat < 6 then .next (s.finishDecode (.signal .truncatedFrame 0)) else k

/-- The Ignored class (R164): result IGNORED with the opcode, no further byte read. -/
def ignoreFrame (opc : BitVec 4) (s : State) : StepResult :=
  withChunk s (.next (s.finishDecode (.signal .ignored opc)))

/-! ### The wire instructions. FIN and RSV never affect the result (R162). -/

/-- TEXT (R165 to R172). -/
def execText (_fin : Bool) (_rsv : BitVec 3) (s : State) : StepResult :=
  withChunk s <| withRead (decodeText s s.inLen.toNat) fun d => .next (s.finishDecode d)

/-- CLOSE (R163): CLOSE_SIGNAL at once, no further byte read. -/
def execClose (_fin : Bool) (_rsv : BitVec 3) (s : State) : StepResult :=
  withChunk s (.next (s.finishDecode (.signal .closeSignal 0x8)))

/-- IGNORED_0x0 (R164). -/
def execIgnored0 (_fin : Bool) (_rsv : BitVec 3) (s : State) : StepResult := ignoreFrame 0x0 s

/-- IGNORED_0x2 (R164, R216). -/
def execIgnored2 (_fin : Bool) (_rsv : BitVec 3) (s : State) : StepResult := ignoreFrame 0x2 s

/-- IGNORED_0x3 (R164). -/
def execIgnored3 (_fin : Bool) (_rsv : BitVec 3) (s : State) : StepResult := ignoreFrame 0x3 s

/-- IGNORED_0x4 (R164). -/
def execIgnored4 (_fin : Bool) (_rsv : BitVec 3) (s : State) : StepResult := ignoreFrame 0x4 s

/-- IGNORED_0x5 (R164). -/
def execIgnored5 (_fin : Bool) (_rsv : BitVec 3) (s : State) : StepResult := ignoreFrame 0x5 s

/-- IGNORED_0x6 (R164). -/
def execIgnored6 (_fin : Bool) (_rsv : BitVec 3) (s : State) : StepResult := ignoreFrame 0x6 s

/-- IGNORED_0x7 (R164). -/
def execIgnored7 (_fin : Bool) (_rsv : BitVec 3) (s : State) : StepResult := ignoreFrame 0x7 s

/-- IGNORED_0x9 (R164). -/
def execIgnored9 (_fin : Bool) (_rsv : BitVec 3) (s : State) : StepResult := ignoreFrame 0x9 s

/-- IGNORED_0xA (R164). -/
def execIgnoredA (_fin : Bool) (_rsv : BitVec 3) (s : State) : StepResult := ignoreFrame 0xA s

/-- IGNORED_0xB (R164). -/
def execIgnoredB (_fin : Bool) (_rsv : BitVec 3) (s : State) : StepResult := ignoreFrame 0xB s

/-- IGNORED_0xC (R164). -/
def execIgnoredC (_fin : Bool) (_rsv : BitVec 3) (s : State) : StepResult := ignoreFrame 0xC s

/-- IGNORED_0xD (R164). -/
def execIgnoredD (_fin : Bool) (_rsv : BitVec 3) (s : State) : StepResult := ignoreFrame 0xD s

/-- IGNORED_0xE (R164). -/
def execIgnoredE (_fin : Bool) (_rsv : BitVec 3) (s : State) : StepResult := ignoreFrame 0xE s

/-- IGNORED_0xF (R164). -/
def execIgnoredF (_fin : Bool) (_rsv : BitVec 3) (s : State) : StepResult := ignoreFrame 0xF s

/-- Run the wire instruction of byte 0 (R85, R162): the same choice as `decodeFrameByte`. -/
def runFrame (b : Byte) (s : State) : StepResult :=
  match (opcodeNibble b).toNat with
  | 0x0 => execIgnored0 (finBit b) (rsvBits b) s
  | 0x1 => execText (finBit b) (rsvBits b) s
  | 0x2 => execIgnored2 (finBit b) (rsvBits b) s
  | 0x3 => execIgnored3 (finBit b) (rsvBits b) s
  | 0x4 => execIgnored4 (finBit b) (rsvBits b) s
  | 0x5 => execIgnored5 (finBit b) (rsvBits b) s
  | 0x6 => execIgnored6 (finBit b) (rsvBits b) s
  | 0x7 => execIgnored7 (finBit b) (rsvBits b) s
  | 0x8 => execClose (finBit b) (rsvBits b) s
  | 0x9 => execIgnored9 (finBit b) (rsvBits b) s
  | 0xA => execIgnoredA (finBit b) (rsvBits b) s
  | 0xB => execIgnoredB (finBit b) (rsvBits b) s
  | 0xC => execIgnoredC (finBit b) (rsvBits b) s
  | 0xD => execIgnoredD (finBit b) (rsvBits b) s
  | 0xE => execIgnoredE (finBit b) (rsvBits b) s
  | _   => execIgnoredF (finBit b) (rsvBits b) s

/-- DecodeCore on the chunk `IN[0..IN_LEN)` with its writes (R160, R175): what DECODE and FEED share. -/
def decodeChunk (s : State) : StepResult :=
  withChunk s <| withRead (s.readIn 0) fun b => runFrame b s

/-- DECODE (R176): legal in every session state; SESSION is never written. -/
def execDecode (s : State) : StepResult := decodeChunk s

end Sys2Proof.Machine
end

