-- ==== Sys2Proof/Machine/Encoder.lean ====
section
/-! DEFINITION. The FrameEncoder (spec/41_encoder.md): the outgoing text frame of
spec/30_encoding.md R82, TEXT_OUT, and ENCODE. -/

namespace Sys2Proof.Machine

open Sys2Proof

/-- The outgoing frame of a payload (R82): 0x81, then `L` with MASK = 0, then the payload verbatim. -/
def textFrame (payload : List Byte) : List Byte :=
  (0x80 ||| 0x01) :: BitVec.ofNat 8 payload.length :: payload

/-- Emit the frame of the first `l` input bytes, or PAYLOAD_TOO_LONG for `l > 125` (R141, R142). -/
def emitTextFrame (s : State) (l : Nat) : StepResult :=
  if 125 < l then .next (s.finishError .payloadTooLong)
  else withRead (s.readInSlice 0 l) fun payload => .next (s.finishOutput (textFrame payload) 0)

/-- TEXT_OUT (R82): emit the frame whose header is `81 len7`, with its payload from IN_BUF. ENCODE runs
it with LEN7 = IN_LEN (R140); no command runs it with another length (log entry 8). -/
def execTextOut (len7 : BitVec 7) (s : State) : StepResult := emitTextFrame s len7.toNat

/-- ENCODE (R142): the frame of the whole input. Legal in every session state. -/
def execEncode (s : State) : StepResult := checkLength s (emitTextFrame s s.inLen.toNat)

end Sys2Proof.Machine
end

