-- ==== Sys2Proof/Machine/Signer.lean ====
section
/-! DEFINITION. The HandshakeSigner (spec/40_signer.md): SHA-1, base64, the accept token, and SIGN. -/

namespace Sys2Proof.Machine

open Sys2Proof

/-- The 36 bytes of "258EAFA5-E914-47DA-95CA-C5AB0DC85B11" (R100). -/
def guid : List Byte :=
  [0x32, 0x35, 0x38, 0x45, 0x41, 0x46, 0x41, 0x35, 0x2D, 0x45, 0x39, 0x31,
   0x34, 0x2D, 0x34, 0x37, 0x44, 0x41, 0x2D, 0x39, 0x35, 0x43, 0x41, 0x2D,
   0x43, 0x35, 0x41, 0x42, 0x30, 0x44, 0x43, 0x38, 0x35, 0x42, 0x31, 0x31]

/-! ### SHA-1 (R101 to R104) -/

/-- `ROTL_n(x)`, the 32-bit left rotation for `0 < n < 32` (R14). -/
def rotl (n : Nat) (x : Word) : Word := (x <<< n) ||| (x >>> (32 - n))

/-- The number of zero bytes in `Z`: the least that makes `|P|` a multiple of 64 (R101). -/
def zeroPad (len : Nat) : Nat := (64 - (len + 9) % 64) % 64

/-- The padded message `P = M ++ [0x80] ++ Z ++ BE64(8 * |M|)` (R101). -/
def sha1Pad (m : List Byte) : List Byte :=
  m ++ [0x80] ++ List.replicate (zeroPad m.length) 0 ++ be64 (8 * m.length)

/-- Big-endian 32-bit words of a block (R101). -/
def wordsBE : List Byte → List Word
  | a :: b :: c :: d :: rest => (a ++ b ++ c ++ d) :: wordsBE rest
  | _ => []

/-- `W_t` from the words before it, the newest first (R104). -/
def nextWord (ws : List Word) : Word :=
  rotl 1 (ws.getD 2 0 ^^^ ws.getD 7 0 ^^^ ws.getD 13 0 ^^^ ws.getD 15 0)

/-- `n` more words of the schedule, the newest first. -/
def extendSchedule : Nat → List Word → List Word
  | 0, ws => ws
  | n + 1, ws => extendSchedule n (nextWord ws :: ws)

/-- The message schedule `W_0 .. W_79` of a block (R101, R104). -/
def schedule (block : List Byte) : List Word := (extendSchedule 64 (wordsBE block).reverse).reverse

/-- The five words `H0 .. H4`, or `a .. e` within a block (R102, R104). -/
structure ShaState where
  a : Word
  b : Word
  c : Word
  d : Word
  e : Word
deriving DecidableEq, Repr

/-- The initial chaining value (R102). -/
def shaInit : ShaState := ⟨0x67452301, 0xEFCDAB89, 0x98BADCFE, 0x10325476, 0xC3D2E1F0⟩

/-- The round constants `K_t` (R102). -/
def shaK (t : Nat) : Word :=
  if t ≤ 19 then 0x5A827999
  else if t ≤ 39 then 0x6ED9EBA1
  else if t ≤ 59 then 0x8F1BBCDC
  else 0xCA62C1D6

/-- The round functions `f_t` (R103): Ch, Parity, Maj, Parity. -/
def shaF (t : Nat) (b c d : Word) : Word :=
  if t ≤ 19 then (b &&& c) ||| (~~~b &&& d)
  else if t ≤ 39 then b ^^^ c ^^^ d
  else if t ≤ 59 then (b &&& c) ||| (b &&& d) ||| (c &&& d)
  else b ^^^ c ^^^ d

/-- Round `t` with schedule word `w` (R104); `+` is modulo 2^32. -/
def shaRound (t : Nat) (w : Word) (h : ShaState) : ShaState :=
  ⟨rotl 5 h.a + shaF t h.b h.c h.d + h.e + shaK t + w, h.a, rotl 30 h.b, h.c, h.d⟩

/-- The rounds from `t` on, one per remaining schedule word (R104). -/
def shaRounds : Nat → List Word → ShaState → ShaState
  | _, [], h => h
  | t, w :: ws, h => shaRounds (t + 1) ws (shaRound t w h)

/-- One block: 80 rounds, then the addition to the chaining value (R104). -/
def shaBlock (h : ShaState) (block : List Byte) : ShaState :=
  let r := shaRounds 0 (schedule block) h
  ⟨h.a + r.a, h.b + r.b, h.c + r.c, h.d + r.d, h.e + r.e⟩

/-- The first `n` 64-byte blocks of `p`, in order (R104). -/
def shaBlocks : Nat → List Byte → ShaState → ShaState
  | 0, _, h => h
  | n + 1, p, h => shaBlocks n (p.drop 64) (shaBlock h (p.take 64))

/-- The digest bytes `BE32(H0) ++ .. ++ BE32(H4)` (R104). -/
def ShaState.bytes (h : ShaState) : List Byte := be32 h.a ++ be32 h.b ++ be32 h.c ++ be32 h.d ++ be32 h.e

/-- The SHA-1 digest of a message, 20 bytes (R101 to R104). -/
def sha1 (m : List Byte) : List Byte :=
  let p := sha1Pad m
  (shaBlocks (p.length / 64) p shaInit).bytes

/-! ### Base64 (R105, R106) -/

/-- The alphabet (R105). -/
def base64Char (v : Nat) : Byte :=
  if v ≤ 25 then BitVec.ofNat 8 (0x41 + v)
  else if v ≤ 51 then BitVec.ofNat 8 (0x61 + (v - 26))
  else if v ≤ 61 then BitVec.ofNat 8 (0x30 + (v - 52))
  else if v = 62 then 0x2B
  else 0x2F

/-- The pad character `=` (R105). -/
def base64Pad : Byte := 0x3D

/-- The alphabet character of a byte expression of R106 whose value is below 64. -/
def base64Of (v : Byte) : Byte := base64Char v.toNat

/-- The base64 encoding of a byte sequence (R106). -/
def base64 : List Byte → List Byte
  | x :: y :: z :: rest =>
    base64Of (x >>> 2) :: base64Of (((x &&& 3) <<< 4) ||| (y >>> 4)) ::
    base64Of (((y &&& 15) <<< 2) ||| (z >>> 6)) :: base64Of (z &&& 63) :: base64 rest
  | [x, y] =>
    [base64Of (x >>> 2), base64Of (((x &&& 3) <<< 4) ||| (y >>> 4)), base64Of ((y &&& 15) <<< 2), base64Pad]
  | [x] => [base64Of (x >>> 2), base64Of ((x &&& 3) <<< 4), base64Pad, base64Pad]
  | [] => []

/-! ### SIGN -/

/-- The accept token of a key: base64 of SHA-1 of `K ++ GUID` (R100, R107). -/
def acceptToken (key : List Byte) : List Byte := base64 (sha1 (key ++ guid))

/-- SIGN (R107): the token of the input to `OUT[0..28)`. Legal in every session state. -/
def execSign (s : State) : StepResult :=
  checkLength s <| withRead s.readInput fun key => .next (s.finishOutput (acceptToken key) 0)

end Sys2Proof.Machine
end

