-- ==== Sys2Proof/Machine/Session.lean ====
section
/-! DEFINITION. The session controller (spec/43_session.md): UPGRADE, FEED, DISCONNECT and NOP, and the
reserved command words (spec/30_encoding.md R72). The pre-checks stand in the order of R74. -/

namespace Sys2Proof.Machine

open Sys2Proof

/-- CRLF is 0D 0A (R17). -/
def crlf : List Byte := [0x0D, 0x0A]

/-- "HTTP/1.1 101 Web Socket Protocols" (R204). -/
def statusLine : List Byte :=
  [0x48, 0x54, 0x54, 0x50, 0x2F, 0x31, 0x2E, 0x31, 0x20, 0x31, 0x30, 0x31, 0x20, 0x57, 0x65, 0x62, 0x20,
   0x53, 0x6F, 0x63, 0x6B, 0x65, 0x74, 0x20, 0x50, 0x72, 0x6F, 0x74, 0x6F, 0x63, 0x6F, 0x6C, 0x73]

/-- "Upgrade: WebSocket" (R204). -/
def upgradeLine : List Byte :=
  [0x55, 0x70, 0x67, 0x72, 0x61, 0x64, 0x65, 0x3A, 0x20, 0x57, 0x65, 0x62, 0x53, 0x6F, 0x63, 0x6B, 0x65, 0x74]

/-- "Connection: Upgrade" (R204). -/
def connectionLine : List Byte :=
  [0x43, 0x6F, 0x6E, 0x6E, 0x65, 0x63, 0x74, 0x69, 0x6F, 0x6E, 0x3A, 0x20, 0x55, 0x70, 0x67, 0x72, 0x61, 0x64,
   0x65]

/-- "Sec-WebSocket-Accept: " (R204). -/
def acceptName : List Byte :=
  [0x53, 0x65, 0x63, 0x2D, 0x57, 0x65, 0x62, 0x53, 0x6F, 0x63, 0x6B, 0x65, 0x74, 0x2D, 0x41, 0x63, 0x63, 0x65,
   0x70, 0x74, 0x3A, 0x20]

/-- The upgrade response header with token `t` (R204): 130 bytes for a 28-byte token. -/
def upgradeHeader (t : List Byte) : List Byte :=
  statusLine ++ crlf ++ upgradeLine ++ crlf ++ connectionLine ++ crlf ++ acceptName ++ t ++ crlf ++ crlf

/-- UPGRADE (R205, R206): BAD_STATE outside Handshaking, MISSING_KEY without a key, BAD_LENGTH; else the
header and the greeting frame, and the session opens. -/
def execUpgrade (kp : Bool) (s : State) : StepResult :=
  if s.session ≠ .handshaking then .next (s.finishError .badState)
  else if !kp then .next (s.finishError .missingKey)
  else checkLength s <| withRead s.readInput fun key =>
    let s' := s.finishOutput (upgradeHeader (acceptToken key) ++ textFrame s.cfg.greeting) 130
    .next { s' with session := .opened }

/-- The session transition of FEED (R215): closed on CLOSE_SIGNAL, TRUNCATED_FRAME and
UNMASKED_CLIENT_FRAME. -/
def State.closeOnResult (s : State) : State :=
  if s.status.closesSession then { s with session := .closed } else s

/-- Apply the session transition to a decode's answer (R215). -/
def closeOnResult (r : StepResult) : StepResult :=
  match r with
  | .next s => .next s.closeOnResult
  | .fault f => .fault f
  | .refused f => .refused f

/-- FEED (R215, R216): BAD_STATE unless Open; else the decode of DECODE and the session transition,
which the pre-check result BAD_LENGTH does not move. -/
def execFeed (s : State) : StepResult :=
  if s.session ≠ .opened then .next (s.finishError .badState)
  else closeOnResult (decodeChunk s)

/-- DISCONNECT (R222): Closed from any state, and OK. -/
def execDisconnect (s : State) : StepResult :=
  .next { s with session := .closed, outLen := 0, auxLen := 0, status := .ok }

/-- NOP (R225): nothing changes, not even STATUS. -/
def execNop (s : State) : StepResult := .next s

/-- RESERVED_CMD (R72): BAD_COMMAND, whatever the fields hold. -/
def execReservedCmd (_op _rsvdLo : BitVec 4) (_kp : Bool) (_rsvdHi : BitVec 23) (s : State) : StepResult :=
  .next (s.finishError .badCommand)

end Sys2Proof.Machine
end

