-- ==== Sys2Proof/Machine/Dispatch.lean ====
section
/-! DEFINITION. One arm per constructor of `Instr`: which meaning runs it. -/

namespace Sys2Proof.Machine

open Sys2Proof

def exec (i : Instr) (s : State) : Host.Outcome State Fault Refusal :=
  match i with
  -- command words
  | .nop => Sys2Proof.Machine.execNop s
  | .sign => Sys2Proof.Machine.execSign s
  | .encode => Sys2Proof.Machine.execEncode s
  | .decode => Sys2Proof.Machine.execDecode s
  | .upgrade kp => Sys2Proof.Machine.execUpgrade kp s
  | .feed => Sys2Proof.Machine.execFeed s
  | .disconnect => Sys2Proof.Machine.execDisconnect s
  | .reservedCmd op lo kp hi => Sys2Proof.Machine.execReservedCmd op lo kp hi s
  -- incoming frames, by the opcode nibble of byte 0
  | .text fin rsv => Sys2Proof.Machine.execText fin rsv s
  | .close fin rsv => Sys2Proof.Machine.execClose fin rsv s
  | .ignored0 fin rsv => Sys2Proof.Machine.execIgnored0 fin rsv s
  | .ignored2 fin rsv => Sys2Proof.Machine.execIgnored2 fin rsv s
  | .ignored3 fin rsv => Sys2Proof.Machine.execIgnored3 fin rsv s
  | .ignored4 fin rsv => Sys2Proof.Machine.execIgnored4 fin rsv s
  | .ignored5 fin rsv => Sys2Proof.Machine.execIgnored5 fin rsv s
  | .ignored6 fin rsv => Sys2Proof.Machine.execIgnored6 fin rsv s
  | .ignored7 fin rsv => Sys2Proof.Machine.execIgnored7 fin rsv s
  | .ignored9 fin rsv => Sys2Proof.Machine.execIgnored9 fin rsv s
  | .ignoredA fin rsv => Sys2Proof.Machine.execIgnoredA fin rsv s
  | .ignoredB fin rsv => Sys2Proof.Machine.execIgnoredB fin rsv s
  | .ignoredC fin rsv => Sys2Proof.Machine.execIgnoredC fin rsv s
  | .ignoredD fin rsv => Sys2Proof.Machine.execIgnoredD fin rsv s
  | .ignoredE fin rsv => Sys2Proof.Machine.execIgnoredE fin rsv s
  | .ignoredF fin rsv => Sys2Proof.Machine.execIgnoredF fin rsv s
  -- the outgoing frame
  | .textOut len7 => Sys2Proof.Machine.execTextOut len7 s

end Sys2Proof.Machine
end

