-- ==== Sys2Proof/Machine/HostPort.lean ====
section
/-! DEFINITION. The host port: the address map, the allowed accesses, and what each access does
(spec/20_memory.md R50 to R55; spec/10_state.md R22), and the host-program steps of
spec/30_encoding.md R95 and R96. -/

namespace Sys2Proof.Machine

open Sys2Proof

/-- The byte offset of a register in the register window (R22). -/
def Reg.offset : Reg → Nat
  | .cmd        => 0x000
  | .status     => 0x004
  | .session    => 0x008
  | .inLen      => 0x00C
  | .outLen     => 0x010
  | .auxLen     => 0x014
  | .decOpcode  => 0x018
  | .decMaskKey => 0x01C
  | .decLenLo   => 0x020
  | .decLenHi   => 0x024
  | .cfg        => 0x028
  | .bufCap     => 0x02C

/-- The register at an offset; `none` at the unassigned offsets 0x030 to 0xFFC (R22, R52). -/
def regAt (off : Nat) : Option Reg :=
  match off with
  | 0x000 => some .cmd
  | 0x004 => some .status
  | 0x008 => some .session
  | 0x00C => some .inLen
  | 0x010 => some .outLen
  | 0x014 => some .auxLen
  | 0x018 => some .decOpcode
  | 0x01C => some .decMaskKey
  | 0x020 => some .decLenLo
  | 0x024 => some .decLenHi
  | 0x028 => some .cfg
  | 0x02C => some .bufCap
  | _     => none

/-- Where a host address lies (R50): in the register window, in one of the two 65536-byte buffer
windows, or in none. -/
inductive Region where
  | register (off : Nat)
  | inWindow (i : Nat)
  | outWindow (i : Nat)
  | outside
deriving DecidableEq, Repr

/-- The address map (R50). -/
def regionOf (addr : Word) : Region :=
  let a := addr.toNat
  if a < 0x1000 then .register a
  else if a < 0x10000 then .outside
  else if a < 0x20000 then .inWindow (a - 0x10000)
  else if a < 0x30000 then .outWindow (a - 0x20000)
  else .outside

/-- Which accesses the port allows (R51, R53): 32-bit and 4-aligned in the register window, 8-bit in the
buffer windows. Outside the windows R52 speaks of a supported access; the model takes the port's two
widths, 8-bit and 4-aligned 32-bit (log entry 6). -/
def accessAllowed (addr : Word) (n : Nat) : Bool :=
  match regionOf addr with
  | .register off => n == 4 && off % 4 == 0
  | .inWindow _   => n == 1
  | .outWindow _  => n == 1
  | .outside      => n == 1 || (n == 4 && addr.toNat % 4 == 0)

/-- What a host read of `IN[i]` gives (R51): the byte, any value where none was written (log entry 4: the
same one in every instance of the epoch, the model's choice), and 0 beyond BUF_CAP (R52). -/
def State.hostInByte (s : State) (i : Nat) : Byte :=
  if i < s.cfg.bufCap then (Memory.read s.inBuf i).getD (Config.freeInByte s.epoch i) else 0

/-- What a host read of `OUT[i]` gives (R51): the byte, any value where no command wrote one (U8, U10; log
entry 3: the same one in every instance of the epoch, the model's choice), and 0 beyond BUF_CAP (R52). -/
def State.hostOutByte (s : State) (i : Nat) : Byte :=
  if i < s.cfg.bufCap then (Memory.read s.outBuf i).getD (Config.freeOutByte s.epoch i) else 0

/-- The value an allowed read returns (R51, R52, R55). -/
def State.hostRead (s : State) (addr : Word) : Word :=
  match regionOf addr with
  | .register off =>
    match regAt off with
    | some r => s.readReg r
    | none   => 0
  | .inWindow i  => (s.hostInByte i).setWidth 32
  | .outWindow i => (s.hostOutByte i).setWidth 32
  | .outside     => 0

/-- What an allowed write does (R22, R51, R52, R55): a write to CMD runs the command, a write to IN_LEN
stores 32 bits, a write to an IN_BUF byte stores 8; every other write is ignored. -/
def hostWrite (runCommand : Word → State → StepResult) (addr : Word) (v : Word) (s : State) : StepResult :=
  match regionOf addr with
  | .register off =>
    match regAt off with
    | some .cmd   => runCommand v s
    | some .inLen => .next { s with inLen := v }
    | some .status | some .session | some .outLen | some .auxLen | some .decOpcode | some .decMaskKey
    | some .decLenLo | some .decLenHi | some .cfg | some .bufCap | none => .next s
  | .inWindow i =>
    if i < s.cfg.bufCap then .next { s with inBuf := Memory.write s.inBuf i (v.setWidth 8) } else .next s
  | .outWindow _ => .next s
  | .outside     => .next s

/-- One input at the port: an allowed access, a disallowed one (stuck, R53), or reset (R270). -/
def hostAccess (runCommand : Word → State → StepResult) (a : HostAccess) (s : State) : StepResult :=
  match a with
  | .reset => .next s.applyReset
  | .read addr n =>
    if accessAllowed addr n then .next { s with readData := s.hostRead addr } else .fault (.hostProtocol addr n)
  | .write addr n v =>
    if accessAllowed addr n then hostWrite runCommand addr v s else .fault (.hostProtocol addr n)

/-! ### Host-program steps (R95, R96) -/

/-- The host address of a register (R50). -/
def Reg.addr (r : Reg) : Word := BitVec.ofNat 32 r.offset

/-- The host address of `IN[i]` (R50). -/
def inAddr (i : Nat) : Word := BitVec.ofNat 32 (0x10000 + i)

/-- The host address of `OUT[i]` (R50). -/
def outAddr (i : Nat) : Word := BitVec.ofNat 32 (0x20000 + i)

/-- `wr REG, v` (R95). -/
def wr (r : Reg) (v : Word) : HostAccess := .write r.addr 4 v

/-- `rd REG` (R95). -/
def rd (r : Reg) : HostAccess := .read r.addr 4

/-- `wb i, v` (R95). -/
def wb (i : Nat) (v : Byte) : HostAccess := .write (inAddr i) 1 (v.setWidth 32)

/-- `rb i` (R95). -/
def rb (i : Nat) : HostAccess := .read (outAddr i) 1

/-- `cmd OP` with KP = 0 (R95). -/
def cmd (op : BitVec 4) : HostAccess := wr .cmd (op.setWidth 32)

/-- `cmd UPGRADE, kp` (R95). -/
def cmdUpgradeKp : HostAccess := wr .cmd 0x00000104

/-- The byte writes of `load`, from index `i` on (R96). -/
def loadBytes : Nat → List Byte → List HostAccess
  | _, [] => []
  | i, b :: bs => wb i b :: loadBytes (i + 1) bs

/-- `load s` (R96): the byte writes, then `wr IN_LEN, |s|`. -/
def load (bs : List Byte) : List HostAccess := loadBytes 0 bs ++ [wr .inLen (BitVec.ofNat 32 bs.length)]

end Sys2Proof.Machine
end

