-- ==== Sys2Proof/Machine/Step.lean ====
section
/-! DEFINITION. One step: WSC takes the host's next access and performs it whole (spec/20_memory.md R56,
R58). WSC has no program counter and fetches no instructions (spec/10_state.md R21): a word written to
CMD is the instruction, and a frame in IN_BUF is the instruction a DECODE or FEED runs. -/

namespace Sys2Proof.Machine

open Sys2Proof

/-- The command of a word written to CMD (R25, R74). -/
def runCommand (w : Word) (s : State) : StepResult := exec (decodeCommandWord w) s

/-- One step: the host's next access; with none pending WSC is idle and holds its state (R254, R271). -/
def step (s : State) : Host.Outcome State Fault Refusal :=
  match s.program with
  | [] => .next s
  | a :: rest => hostAccess runCommand a { s with program := rest }

/-- `s` with the instruction of the table word `w` where the next step runs it (log entry 7). A command
word: the host's next access writes it to CMD. A frame byte: it is `IN[0]` of a chunk with a zero header
(13 zero bytes, the longest header being 14), and the next access triggers DECODE. An outgoing header:
LEN7 zero bytes are the input, and the next access triggers ENCODE. -/
def State.withFetchWord (s : State) (nbits w : Nat) : State :=
  match decodeTableWord nbits w with
  | none => s
  | some i =>
    match nbits with
    | 32 => { s with program := wr .cmd (BitVec.ofNat 32 w) :: s.program }
    | 8  =>
      { s with
        inBuf := Memory.writeBytes s.inBuf 0 (BitVec.ofNat 8 w :: List.replicate 13 0)
        inLen := 14
        program := cmd 3 :: s.program }
    | _  =>
      match i with
      | .textOut l =>
        { s with
          inBuf := Memory.writeBytes s.inBuf 0 (List.replicate l.toNat 0)
          inLen := l.setWidth 32
          program := cmd 2 :: s.program }
      | _ => s

end Sys2Proof.Machine
end

