-- ==== Sys2Proof/Machine/System.lean ====
section
/-! DEFINITION. A system of N_INST instances (spec/00_scope.md R12; spec/60_exceptions.md R252): they
share no state, each has one host agent (R58), and a step of the system is a step of one instance. -/

namespace Sys2Proof.Machine

/-- The instances, one per connection; N_INST is the length. -/
abbrev System := List State

/-- Instance `k` steps; an index beyond N_INST names no instance, and nothing happens. -/
def System.stepAt (sys : System) (k : Nat) : Host.Outcome System Fault Refusal :=
  match sys[k]? with
  | none => .next sys
  | some s =>
    match step s with
    | .next s' => .next (sys.set k s')
    | .fault f => .fault f
    | .refused f => .refused f

end Sys2Proof.Machine
end

