-- ==== Sys2Proof/Safety.lean ====
section
/-! DEFINITION. The terms claims use: the input a command sees, the invariant of the machine, and which
fields an instruction may write. -/

namespace Sys2Proof.Machine

open Sys2Proof

/-- The input is `bs`: IN_LEN is its length and the host has written every byte of it (R26, R274). -/
def State.InputIs (s : State) (bs : List Byte) : Prop :=
  s.inLen.toNat = bs.length ∧ ∀ i, i < bs.length → Memory.read s.inBuf i = bs[i]?

/-- Every byte of `IN[0..IN_LEN)` has been written since reset (R274, U7). -/
def State.inputWritten (s : State) : Bool :=
  (List.range s.inLen.toNat).all fun i => (Memory.read s.inBuf i).isSome

/-- The 64-bit number `{DEC_LEN_HI, DEC_LEN_LO}` (R31). -/
def State.decLen (s : State) : BitVec 64 := s.decLenHi ++ s.decLenLo

/-- The invariant of the machine. -/
structure State.Inv (s : State) : Prop where
  /-- The parameters meet R8 and R11. -/
  cfgWf        : s.cfg.wf = true
  /-- The buffers keep their canonical form and hold BUF_CAP bytes (R34, R35). -/
  inWf         : Memory.wf s.inBuf
  inBelow      : Memory.below s.inBuf s.cfg.bufCap
  outWf        : Memory.wf s.outBuf
  outBelow     : Memory.below s.outBuf s.cfg.bufCap
  /-- OUT_LEN is at most BUF_CAP (R27), and `OUT[0..OUT_LEN)` are valid output bytes: all written. -/
  outLenLe     : s.outLen.toNat ≤ s.cfg.bufCap
  outWritten   : ∀ i, i < s.outLen.toNat → (Memory.read s.outBuf i).isSome
  /-- AUX_LEN is 130 after an UPGRADE finishing OK, with the greeting frame after it, else 0 (R28). -/
  auxLen       : s.auxLen = 0 ∨ (s.auxLen = 130 ∧ s.outLen.toNat = 132 + s.cfg.greeting.length)
  /-- OUT_LEN and AUX_LEN are 0 after any result other than OK (R27, R28, R242). -/
  noOutput     : s.status ≠ .ok → s.outLen = 0 ∧ s.auxLen = 0
  /-- Only a Text frame has a length and a key (R30, R31). -/
  decText      : s.decOpcode ≠ 1 → s.decLen = 0 ∧ s.decMaskKey = 0
  /-- A decoded payload lay in the chunk (R170, R175). -/
  decFits      : s.decLen ≠ 0 → s.decLen.toNat + 6 ≤ s.cfg.bufCap
  /-- In LITERAL mode L is at most 127, so DEC_LEN_HI is 0 (R31). -/
  decLiteral   : s.cfg.lenMode = .literal → s.decLenHi = 0 ∧ s.decLenLo.toNat ≤ 127

/-- The instructions whose meaning runs the decode procedure (R29, R175). -/
def runsDecode : Instr → Bool
  | .decode | .feed | .text _ _ | .close _ _ => true
  | .ignored0 _ _ | .ignored2 _ _ | .ignored3 _ _ | .ignored4 _ _ | .ignored5 _ _ | .ignored6 _ _
  | .ignored7 _ _ | .ignored9 _ _ | .ignoredA _ _ | .ignoredB _ _ | .ignoredC _ _ | .ignoredD _ _
  | .ignoredE _ _ | .ignoredF _ _ => true
  | .nop | .sign | .encode | .upgrade _ | .disconnect | .reservedCmd _ _ _ _ | .textOut _ => false

/-- The instruction is a command word (R70, R72). -/
def isCommand : Instr → Bool
  | .nop | .sign | .encode | .decode | .upgrade _ | .feed | .disconnect | .reservedCmd _ _ _ _ => true
  | .text _ _ | .close _ _ | .textOut _ => false
  | .ignored0 _ _ | .ignored2 _ _ | .ignored3 _ _ | .ignored4 _ _ | .ignored5 _ _ | .ignored6 _ _
  | .ignored7 _ _ | .ignored9 _ _ | .ignoredA _ _ | .ignoredB _ _ | .ignoredC _ _ | .ignoredD _ _
  | .ignoredE _ _ | .ignoredF _ _ => false

/-! ### The next states that the rules give, written out for the statements -/

/-- The state after a command finishes with a result other than OK and no decode ran (R242). -/
def State.failed (s : State) (r : Result) : State := { s with status := r, outLen := 0, auxLen := 0 }

/-- The state after a decode with result `r` other than OK and opcode `opc` (R175, R242). -/
def State.decodeFailed (s : State) (r : Result) (opc : BitVec 4) : State :=
  { s with
    status := r, outLen := 0, auxLen := 0
    decOpcode := opc, decLenHi := 0, decLenLo := 0, decMaskKey := 0 }

/-- The state after a Text frame with mask key `k0 k1 k2 k3` decodes OK to the payload `pay` (R175). -/
def State.decodedText (s : State) (k0 k1 k2 k3 : Byte) (pay : List Byte) : State :=
  { s with
    status := .ok
    outBuf := Memory.writeBytes s.outBuf 0 pay
    outLen := BitVec.ofNat 32 pay.length
    auxLen := 0
    decOpcode := 1
    decLenHi := BitVec.ofNat 32 (pay.length / 2 ^ 32)
    decLenLo := BitVec.ofNat 32 pay.length
    decMaskKey := k0 ++ k1 ++ k2 ++ k3 }

/-- `mask(P, M)[i] = P[i] ^ M[i mod 4]` (R177), which is its own inverse. -/
def maskBytes (k0 k1 k2 k3 : Byte) (bs : List Byte) : List Byte :=
  bs.mapIdx fun i b => b ^^^ ([k0, k1, k2, k3].getD (i % 4) 0)

/-- The payload offset of a Text frame with byte 1 `b1` (R167, R168); the mask key is the four bytes
before it (R169), and an extended length the bytes from offset 2 to the key. -/
def payloadOffset (mode : LenMode) (b1 : Byte) : Nat :=
  if mode = .literal ∨ b1.toNat % 128 ≤ 125 then 6 else if b1.toNat % 128 = 126 then 8 else 14

/-- The payload length L of a Text frame with byte 1 `b1` and extended-length bytes `ext` (R167, R168):
LEN7, or the big-endian number. -/
def textLength (b1 : Byte) (ext : List Byte) : Nat :=
  if ext = [] then b1.toNat % 128
  else ((List.range ext.length).map fun j => (ext.getD j 0).toNat * 2 ^ (8 * (ext.length - 1 - j))).sum

/-- `IN[i]` is the first byte of IN_BUF that no host write has set since reset (R274). -/
def State.firstUnwritten (s : State) (i : Nat) : Prop :=
  Memory.read s.inBuf i = none ∧ ∀ j, j < i → (Memory.read s.inBuf j).isSome

/-- The decode of the chunk stops at the unwritten byte `IN[i]`: under DECODE, under FEED in an open
session, and, from byte 1 on, under TEXT, which does not read byte 0 (log entry 9). -/
def State.decodeStopsAt (s : State) (i : Nat) : Prop :=
  exec .decode s = .fault (.unwrittenInput i) ∧
  (s.session = .opened → exec .feed s = .fault (.unwrittenInput i)) ∧
  (i ≠ 0 → ∀ fin rsv, exec (.text fin rsv) s = .fault (.unwrittenInput i))

/-- The ASCII bytes of a string constant (R17). -/
def asciiBytes (str : String) : List Byte := str.toList.map fun c => BitVec.ofNat 8 c.toNat

/-- The reserved command words of R72, on the number of the word. -/
def reservedWord (w : Word) : Prop :=
  w.toNat / 512 ≠ 0 ∨ w.toNat / 16 % 16 ≠ 0 ∨ 7 ≤ w.toNat % 16 ∨
    (w.toNat / 256 % 2 = 1 ∧ w.toNat % 16 ≠ 4)

end Sys2Proof.Machine
end

