-- ==== Sys2Proof/Certificates/Slice0/Obligations.lean ====
section
/-! DEFINITION. The statements for the provers, from the numbered rules of spec/. -/

open Sys2Proof Sys2Proof.Machine

/-! ### Encodings (spec/30_encoding.md) -/

/-- Decoding an encoded well-formed instruction gives it back, with every operand at every value. -/
def Obligations.EncodedInstructionDecodesBack : Prop :=
  ∀ i : Instr, i.wf = true → Sys2Proof.decode (Sys2Proof.encode i) = .ok i

/-- Each code has one meaning: what decodes is well formed and encodes back to the very code, so no bit
of a command word, of a frame's byte 0 or of an outgoing header is dropped. -/
def Obligations.DecodedCodeEncodesBack : Prop :=
  ∀ (c : Code) (i : Instr), Sys2Proof.decode c = .ok i → i.wf = true ∧ Sys2Proof.encode i = c

/-- Words written out from R70, R85 and R82 decode to the instructions they stand for. -/
def Obligations.WrittenOutWordsDecode : Prop :=
  decodeCommandWord 0x00000000 = .nop ∧ decodeCommandWord 0x00000001 = .sign ∧
  decodeCommandWord 0x00000005 = .feed ∧ decodeCommandWord 0x00000004 = .upgrade false ∧
  decodeCommandWord 0x00000104 = .upgrade true ∧
  decodeCommandWord 0x00000012 = .reservedCmd 2 1 false 0 ∧
  decodeFrameByte 0x81 = .text true 0 ∧ decodeFrameByte 0x78 = .close false 7 ∧
  decodeFrameByte 0x8A = .ignoredA true 0 ∧
  decodeOutHeader 0x81 0x7D = .ok (.textOut 125) ∧ decodeOutHeader 0x81 0x7E = .error .outLenMarker

/-- R74 with R72 and R73: the pre-checks of a CMD write, in their order, what each result writes, and
which operation is performed. -/
def Obligations.CmdWritePreChecksInOrder : Prop :=
  ∀ (s : State) (w : Word) (rest : List HostAccess), s.program = .write 0 4 w :: rest →
    let s0 : State := { s with program := rest }
    (reservedWord w → step s = .next (s0.failed .badCommand)) ∧
    (w = 0 → step s = .next s0) ∧
    ((w = 0x004 ∨ w = 0x104) → s.session ≠ .handshaking → step s = .next (s0.failed .badState)) ∧
    (w = 0x005 → s.session ≠ .opened → step s = .next (s0.failed .badState)) ∧
    (w = 0x004 → s.session = .handshaking → step s = .next (s0.failed .missingKey)) ∧
    ((w = 0x001 ∨ w = 0x002 ∨ w = 0x003 ∨ (w = 0x104 ∧ s.session = .handshaking) ∨
        (w = 0x005 ∧ s.session = .opened)) →
      s.cfg.bufCap < s.inLen.toNat → step s = .next (s0.failed .badLength)) ∧
    (w = 0x001 → step s = exec .sign s0) ∧ (w = 0x002 → step s = exec .encode s0) ∧
    (w = 0x003 → step s = exec .decode s0) ∧ (w = 0x104 → step s = exec (.upgrade true) s0) ∧
    (w = 0x005 → step s = exec .feed s0) ∧ (w = 0x006 → step s = exec .disconnect s0)

/-! ### The step and the host port (spec/20_memory.md) -/

/-- A step runs the decoded instruction: a 32-bit write to CMD is exec of the word's instruction on the
state with that access taken. -/
def Obligations.CmdWriteRunsDecodedInstruction : Prop :=
  ∀ (s : State) (w : Word) (rest : List HostAccess), s.program = .write 0 4 w :: rest →
    step s = exec (decodeCommandWord w) { s with program := rest }

/-- DECODE runs the wire instruction that byte 0 of the chunk decodes to, and FEED runs the same and
then moves the session. -/
def Obligations.DecodeRunsTheInstructionOfByte0 : Prop :=
  ∀ (s : State) (b : Byte), s.inLen.toNat ≤ s.cfg.bufCap → 6 ≤ s.inLen.toNat →
    Memory.read s.inBuf 0 = some b →
    exec .decode s = exec (decodeFrameByte b) s ∧
    (s.session = .opened → exec .feed s = closeOnResult (exec (decodeFrameByte b) s))

/-- ENCODE of up to 125 bytes runs TEXT_OUT with LEN7 = IN_LEN. -/
def Obligations.EncodeRunsTextOutOfInLen : Prop :=
  ∀ s : State, s.inLen.toNat ≤ s.cfg.bufCap → s.inLen.toNat ≤ 125 →
    exec .encode s = exec (.textOut (BitVec.ofNat 7 s.inLen.toNat)) s

/-- The host interface: the step after `withFetchWord` is exec of the instruction the table word decodes
to, for a command word on the state itself, for a frame byte on a chunk of that byte and 13 zero bytes,
for an outgoing header on LEN7 zero bytes of input (the model's placement, log entry 7). -/
def Obligations.FetchedTableWordRuns : Prop :=
  ∀ (s : State) (w : Nat) (i : Instr), s.cfg.wf = true →
    (decodeTableWord 32 w = some i → step (s.withFetchWord 32 w) = exec i s) ∧
    (decodeTableWord 8 w = some i → step (s.withFetchWord 8 w) =
      exec i { s with inBuf := Memory.writeBytes s.inBuf 0 (BitVec.ofNat 8 w :: List.replicate 13 0), inLen := 14 }) ∧
    (decodeTableWord 16 w = some i → step (s.withFetchWord 16 w) =
      exec i { s with
        inBuf := Memory.writeBytes s.inBuf 0 (List.replicate (w % 128) 0)
        inLen := BitVec.ofNat 32 (w % 128) })

/-- With no host access pending WSC is idle and holds its state. -/
def Obligations.IdleHoldsItsState : Prop :=
  ∀ s : State, s.program = [] → step s = .next s

/-- R55: only a 32-bit write to CMD has a side effect, the command it triggers. A read changes nothing of WSC and its value does
not depend on earlier reads; a write to IN_LEN or to an IN_BUF byte only stores its value; every other
allowed write changes nothing. -/
def Obligations.OnlyCmdWritesHaveSideEffects : Prop :=
  ∀ (s : State) (a : HostAccess) (rest : List HostAccess), s.program = a :: rest → s.cfg.wf = true →
    let s0 : State := { s with program := rest }
    (∀ addr n, a = .read addr n → accessAllowed addr n = true →
      step s = .next { s0 with readData := s.hostRead addr } ∧
      ∀ (p : List HostAccess) (v : Word),
        ({ s with program := p, readData := v } : State).hostRead addr = s.hostRead addr) ∧
    (∀ w, a = .write 0 4 w → step s = exec (decodeCommandWord w) s0) ∧
    (∀ v, a = .write 0x0000000C 4 v → step s = .next { s0 with inLen := v }) ∧
    (∀ i v, i < s.cfg.bufCap → a = .write (BitVec.ofNat 32 (0x10000 + i)) 1 v →
      step s = .next { s0 with inBuf := Memory.write s.inBuf i (v.setWidth 8) }) ∧
    (∀ addr n v, a = .write addr n v → accessAllowed addr n = true → addr ≠ 0 → addr ≠ 0x0000000C →
      (addr.toNat < 0x10000 ∨ 0x10000 + s.cfg.bufCap ≤ addr.toNat) → step s = .next s0)

/-- R22 and R23 to R33: what a host read of each register returns, CMD and the unassigned offsets
reading 0. SESSION reads 0 in Handshaking, 1 in Open, 2 in Closed (R23); the result codes are those of
`ResultCodes`. -/
def Obligations.RegisterReadValues : Prop :=
  ∀ s : State,
    s.hostRead 0x000 = 0 ∧
    s.hostRead 0x004 = s.status.code.setWidth 32 ∧
    s.hostRead 0x008 = s.session.code.setWidth 32 ∧
    (s.session = .handshaking → s.hostRead 0x008 = 0) ∧
    (s.session = .opened → s.hostRead 0x008 = 1) ∧
    (s.session = .closed → s.hostRead 0x008 = 2) ∧
    s.hostRead 0x00C = s.inLen ∧
    s.hostRead 0x010 = s.outLen ∧
    s.hostRead 0x014 = s.auxLen ∧
    s.hostRead 0x018 = s.decOpcode.setWidth 32 ∧
    s.hostRead 0x01C = s.decMaskKey ∧
    s.hostRead 0x020 = s.decLenLo ∧
    s.hostRead 0x024 = s.decLenHi ∧
    (s.hostRead 0x028).toNat = (if s.cfg.lenMode = .rfc then 1 else 0) + (if s.cfg.checkMask then 2 else 0) ∧
    s.hostRead 0x02C = BitVec.ofNat 32 s.cfg.bufCap ∧
    ∀ off, 0x30 ≤ off → off ≤ 0xFFC → s.hostRead (BitVec.ofNat 32 off) = 0

/-- R51 and R52: an 8-bit read of a buffer window returns the byte last written there, and 0 at indexes
from BUF_CAP on. -/
def Obligations.BufferWindowReadValues : Prop :=
  ∀ (s : State) (i : Nat), s.cfg.wf = true → i < 0x10000 →
    (i < s.cfg.bufCap → ∀ b, Memory.read s.inBuf i = some b →
      s.hostRead (BitVec.ofNat 32 (0x10000 + i)) = b.setWidth 32) ∧
    (i < s.cfg.bufCap → ∀ b, Memory.read s.outBuf i = some b →
      s.hostRead (BitVec.ofNat 32 (0x20000 + i)) = b.setWidth 32) ∧
    (s.cfg.bufCap ≤ i → s.hostRead (BitVec.ofNat 32 (0x10000 + i)) = 0 ∧
      s.hostRead (BitVec.ofNat 32 (0x20000 + i)) = 0)

/-- R53: a register-window access that is not 32 bits wide or not 4-aligned, and a buffer-window access
wider than 8 bits, gets no step: the host is stuck. -/
def Obligations.DisallowedAccessIsStuck : Prop :=
  ∀ (s : State) (addr : Word) (n : Nat) (v : Word) (rest : List HostAccess),
    (s.program = .read addr n :: rest ∨ s.program = .write addr n v :: rest) →
    ((addr.toNat < 0x1000 ∧ (n ≠ 4 ∨ addr.toNat % 4 ≠ 0)) ∨
      (0x10000 ≤ addr.toNat ∧ addr.toNat < 0x30000 ∧ 1 < n)) →
    step s = .fault (.hostProtocol addr n)

/-- An 8-bit write to `IN[i]` is seen by the next read of `IN[i]`, and no other address reads otherwise
than before. -/
def Obligations.InputByteWriteThenRead : Prop :=
  ∀ (s : State) (i : Nat) (v : Byte) (rest : List HostAccess), s.cfg.wf = true → i < s.cfg.bufCap →
    s.program = wb i v :: rest →
    ∃ t, step s = .next t ∧ t.hostRead (BitVec.ofNat 32 (0x10000 + i)) = v.setWidth 32 ∧
      ∀ addr : Word, addr.toNat ≠ 0x10000 + i → t.hostRead addr = s.hostRead addr

/-- R96: after the host accesses of `load bs`, IN_LEN and the input are `bs` and nothing else has
changed. -/
def Obligations.LoadPlacesTheInput : Prop :=
  ∀ (s : State) (bs : List Byte) (rest : List HostAccess), s.cfg.wf = true → bs.length ≤ s.cfg.bufCap →
    s.program = load bs ++ rest →
    let t : State :=
      { s with
        program := rest
        inLen := BitVec.ofNat 32 bs.length
        inBuf := Memory.writeBytes s.inBuf 0 bs }
    core.run (bs.length + 1) s = .next t ∧ t.InputIs bs

/-! ### Reset (spec/70_reset_and_hazards.md) -/

/-- R270: the reset input puts every register at its reset value, leaves no byte of a buffer counted as
written, and does not change the parameters. -/
def Obligations.ResetInputRestoresEveryRegister : Prop :=
  ∀ (s : State) (rest : List HostAccess), s.program = .reset :: rest →
    ∃ t, step s = .next t ∧ t.status = .idle ∧ t.session = .handshaking ∧ t.inLen = 0 ∧ t.outLen = 0 ∧
      t.auxLen = 0 ∧ t.decOpcode = 0 ∧ t.decMaskKey = 0 ∧ t.decLenLo = 0 ∧ t.decLenHi = 0 ∧
      (∀ i, Memory.read t.inBuf i = none ∧ Memory.read t.outBuf i = none) ∧ t.cfg = s.cfg ∧ t.program = rest

/-- The reset column of R22: what the host reads from each register right after reset. -/
def Obligations.ResetStateRegisterReads : Prop :=
  ∀ c : Config, ∀ r : Reg, r ≠ .cfg → r ≠ .bufCap → (State.resetOf c).hostRead r.addr = 0

/-- The invariant holds at reset, in every configuration that meets R8 and R11. -/
def Obligations.ResetMeetsTheInvariant : Prop :=
  State.reset.Inv ∧ ∀ c : Config, c.wf = true → (State.resetOf c).Inv

/-- Every step keeps the invariant: canonical bounded buffers, OUT_LEN within the buffer and over
written bytes only, AUX_LEN 0 or 130, no output after a result other than OK, and the DEC_ registers
describing a Text frame that lay in a chunk. -/
def Obligations.StepKeepsTheInvariant : Prop :=
  ∀ s t : State, s.Inv → step s = .next t → t.Inv

/-! ### Result codes (spec/60_exceptions.md) -/

/-- R240: the codes of the results, all different and none above 10. -/
def Obligations.ResultCodes : Prop :=
  Result.code .idle = 0 ∧ Result.code .ok = 1 ∧ Result.code .closeSignal = 2 ∧ Result.code .ignored = 3 ∧
  Result.code .truncatedFrame = 4 ∧ Result.code .payloadTooLong = 5 ∧ Result.code .missingKey = 6 ∧
  Result.code .unmaskedClientFrame = 7 ∧ Result.code .badState = 8 ∧ Result.code .badCommand = 9 ∧
  Result.code .badLength = 10 ∧ (∀ r r' : Result, r.code = r'.code → r = r')

/-- R242: the outputs of every instruction that finishes with a result other than OK, with the opcode
that R175 puts in DEC_OPCODE for each result of a decode; and NOP writes nothing. -/
def Obligations.FailedCommandWritesNoOutput : Prop :=
  (∀ s : State, exec .nop s = .next s) ∧
  ∀ (i : Instr) (s t : State), exec i s = .next t → i ≠ .nop → t.status ≠ .ok →
    t.outLen = 0 ∧ t.auxLen = 0 ∧ t.outBuf = s.outBuf ∧
    ((t.status = .badCommand ∨ t.status = .badState ∨ t.status = .missingKey ∨ t.status = .badLength ∨
        t.status = .payloadTooLong) → t = s.failed t.status) ∧
    ((t.status = .closeSignal ∨ t.status = .ignored ∨ t.status = .truncatedFrame ∨
        t.status = .unmaskedClientFrame) →
      runsDecode i = true ∧
      t = { s.decodeFailed t.status t.decOpcode with
            session := if i = .feed ∧ t.status ≠ .ignored then .closed else s.session } ∧
      (t.status = .closeSignal → t.decOpcode = 8) ∧ (t.status = .unmaskedClientFrame → t.decOpcode = 1) ∧
      (t.status = .truncatedFrame → t.decOpcode = if s.inLen.toNat < 6 then 0 else 1) ∧
      (t.status = .ignored → t.decOpcode ≠ 1 ∧ t.decOpcode ≠ 8))

/-! ### Frames over all instructions -/

/-- No instruction writes IN_BUF, IN_LEN or the parameters, nor the host's side. -/
def Obligations.CommandsNeverWriteTheInput : Prop :=
  ∀ (i : Instr) (s t : State), exec i s = .next t →
    t.inBuf = s.inBuf ∧ t.inLen = s.inLen ∧ t.cfg = s.cfg ∧ t.epoch = s.epoch ∧ t.program = s.program ∧
    t.readData = s.readData

/-- The DEC_ registers are written by the decode procedure only. -/
def Obligations.DecRegistersWrittenByDecodeOnly : Prop :=
  ∀ (i : Instr) (s t : State), exec i s = .next t → runsDecode i = false →
    t.decOpcode = s.decOpcode ∧ t.decMaskKey = s.decMaskKey ∧ t.decLenLo = s.decLenLo ∧
    t.decLenHi = s.decLenHi

/-- R35: a command writes OUT[0..OUT_LEN) and leaves every byte of OUT_BUF from OUT_LEN upward
unchanged; after a result other than OK all of OUT_BUF. -/
def Obligations.OutputBufferBeyondOutLenUnchanged : Prop :=
  ∀ (i : Instr) (s t : State), s.cfg.wf = true → exec i s = .next t →
    ∀ j, t.outLen.toNat ≤ j → Memory.read t.outBuf j = Memory.read s.outBuf j

/-- R57: every command reads input only from `IN[0..IN_LEN)`, and no byte at all when IN_LEN exceeds
BUF_CAP: replacing the rest of IN_BUF changes nothing but that rest. -/
def Obligations.CommandsReadOnlyTheInput : Prop :=
  ∀ (i : Instr) (s : State) (m : Memory), isCommand i = true →
    (s.cfg.bufCap < s.inLen.toNat ∨ ∀ j, j < s.inLen.toNat → Memory.read m j = Memory.read s.inBuf j) →
    (∀ t, exec i s = .next t → exec i { s with inBuf := m } = .next { t with inBuf := m }) ∧
    (∀ f, exec i s = .fault f → exec i { s with inBuf := m } = .fault f)

/-- R38: no byte of an earlier chunk, output or decode affects a later command. Two instances with the
same parameters, session and input give the same result, lengths and output bytes, and a decode the same
DEC_ registers. -/
def Obligations.OutputsDependOnTheInputOnly : Prop :=
  ∀ (i : Instr) (s s' t : State),
    (i = .sign ∨ i = .encode ∨ i = .decode ∨ i = .upgrade true ∨ i = .feed) →
    s'.cfg = s.cfg → s'.session = s.session → s'.inLen = s.inLen → s'.inBuf = s.inBuf →
    s.cfg.wf = true → exec i s = .next t →
    ∃ t', exec i s' = .next t' ∧ t'.status = t.status ∧ t'.session = t.session ∧ t'.outLen = t.outLen ∧
      t'.auxLen = t.auxLen ∧ (∀ j, j < t.outLen.toNat → Memory.read t'.outBuf j = Memory.read t.outBuf j) ∧
      (i = .decode → s.inLen.toNat ≤ s.cfg.bufCap →
        t'.decOpcode = t.decOpcode ∧ t'.decMaskKey = t.decMaskKey ∧ t'.decLen = t.decLen)

/-! ### NOP, reserved words, DISCONNECT (spec/43_session.md) -/

/-- R225: the word 0 is NOP, and NOP changes nothing, not even STATUS. -/
def Obligations.NopChangesNothing : Prop :=
  decodeCommandWord 0x00000000 = .nop ∧ ∀ s : State, exec .nop s = .next s

/-- A reserved command word writes BAD_COMMAND and the two zero lengths, and nothing else. -/
def Obligations.ReservedCommandWritesBadCommand : Prop :=
  ∀ (op lo : BitVec 4) (kp : Bool) (hi : BitVec 23) (s : State),
    exec (.reservedCmd op lo kp hi) s = .next { s with status := .badCommand, outLen := 0, auxLen := 0 }

/-- R222: DISCONNECT closes the session from any state, with OK and no output. -/
def Obligations.DisconnectClosesFromAnyState : Prop :=
  decodeCommandWord 0x00000006 = .disconnect ∧
  ∀ s : State, exec .disconnect s = .next { s with session := .closed, outLen := 0, auxLen := 0, status := .ok }

/-! ### The signer (spec/40_signer.md) -/

/-- R107: SIGN writes base64(SHA-1(K ++ GUID)), 28 bytes, for every key that fits the buffer, in every
session state; a length beyond the buffer gives BAD_LENGTH. -/
def Obligations.SignWritesTheAcceptToken : Prop :=
  decodeCommandWord 0x00000001 = .sign ∧
  ∀ (s : State) (key : List Byte),
    (s.cfg.bufCap < s.inLen.toNat → exec .sign s = .next (s.failed .badLength)) ∧
    (s.inLen.toNat ≤ s.cfg.bufCap → s.InputIs key →
      exec .sign s = .next
        { s with
          status := .ok
          outBuf := Memory.writeBytes s.outBuf 0
            (base64 (sha1 (key ++ asciiBytes "258EAFA5-E914-47DA-95CA-C5AB0DC85B11")))
          outLen := 28
          auxLen := 0 })

/-- R108: the source's handshake vector, with its digest. -/
def Obligations.SignerMeetsTheHandshakeVector : Prop :=
  sha1 (asciiBytes "dGhlIHNhbXBsZSBub25jZQ==" ++ guid) =
    [0xb3, 0x7a, 0x4f, 0x2c, 0xc0, 0x62, 0x4f, 0x16, 0x90, 0xf6, 0x46, 0x06, 0xcf, 0x38, 0x59, 0x45,
     0xb2, 0xbe, 0xc4, 0xea] ∧
  acceptToken (asciiBytes "dGhlIHNhbXBsZSBub25jZQ==") = asciiBytes "s3pPLMBiTxaQ9kYGzzhZRbK+xOo="

/-- R101: the padded message, its shortest zero run, its big-endian length, and the words of a block. -/
def Obligations.Sha1PaddingAndWords : Prop :=
  (∀ m : List Byte, m.length ≤ 65536 + 36 →
    ∃ z, sha1Pad m = m ++ [0x80] ++ List.replicate z 0 ++ be64 (8 * m.length) ∧
      (sha1Pad m).length % 64 = 0 ∧ (∀ z', z' < z → (m.length + 1 + z' + 8) % 64 ≠ 0) ∧
      (be64 (8 * m.length)).length = 8 ∧ beNat (be64 (8 * m.length)) = 8 * m.length) ∧
  (∀ block : List Byte, block.length = 64 →
    (wordsBE block).length = 16 ∧
    ∀ t, t < 16 → (wordsBE block)[t]? =
      some (block.getD (4 * t) 0 ++ block.getD (4 * t + 1) 0 ++ block.getD (4 * t + 2) 0 ++ block.getD (4 * t + 3) 0))

/-- The message schedule of R104: 80 words, the first 16 of the block, each later one the rotated XOR
of the words 3, 8, 14 and 16 before it. -/
def Obligations.Sha1ScheduleRecurrence : Prop :=
  ∀ block : List Byte, block.length = 64 →
    (schedule block).length = 80 ∧
    (∀ t, t < 16 → (schedule block).getD t 0 = (wordsBE block).getD t 0) ∧
    (∀ t, 16 ≤ t → t < 80 → (schedule block).getD t 0 =
      ((schedule block).getD (t - 3) 0 ^^^ (schedule block).getD (t - 8) 0 ^^^
        (schedule block).getD (t - 14) 0 ^^^ (schedule block).getD (t - 16) 0).rotateLeft 1)

/-- The accept token of every key is 28 ASCII bytes and ends in `=`, and the digest is 20 bytes. -/
def Obligations.AcceptTokenShape : Prop :=
  ∀ key : List Byte, (sha1 (key ++ guid)).length = 20 ∧ (acceptToken key).length = 28 ∧
    (acceptToken key).getD 27 0 = 0x3D ∧ ∀ b ∈ acceptToken key, b.toNat < 128

/-- Base64 loses nothing: two byte sequences with the same encoding are equal. -/
def Obligations.Base64IsInjective : Prop :=
  ∀ d d' : List Byte, base64 d = base64 d' → d = d'

/-! ### The encoder (spec/41_encoder.md) -/

/-- R142: ENCODE in each of its three results. -/
def Obligations.EncodeWritesTheTextFrame : Prop :=
  decodeCommandWord 0x00000002 = .encode ∧
  ∀ (s : State) (payload : List Byte),
    (s.cfg.bufCap < s.inLen.toNat → exec .encode s = .next (s.failed .badLength)) ∧
    (s.inLen.toNat ≤ s.cfg.bufCap → 125 < s.inLen.toNat → exec .encode s = .next (s.failed .payloadTooLong)) ∧
    (s.inLen.toNat ≤ s.cfg.bufCap → s.inLen.toNat ≤ 125 → s.InputIs payload →
      exec .encode s = .next
        { s with
          status := .ok
          outBuf := Memory.writeBytes s.outBuf 0 (0x81 :: BitVec.ofNat 8 payload.length :: payload)
          outLen := BitVec.ofNat 32 (2 + payload.length)
          auxLen := 0 })

/-- R143: after ENCODE finishes OK with input length L, `OUT[1] = L` and `OUT_LEN = 2 + L`; and the rest
of the frame is 0x81 and the payload verbatim. -/
def Obligations.EncodeLengthInvariant : Prop :=
  ∀ s t : State, exec .encode s = .next t → t.status = .ok →
    s.inLen.toNat ≤ 125 ∧ Memory.read t.outBuf 0 = some 0x81 ∧
    Memory.read t.outBuf 1 = some (BitVec.ofNat 8 s.inLen.toNat) ∧ t.outLen.toNat = 2 + s.inLen.toNat ∧
    ∀ i, i < s.inLen.toNat → Memory.read t.outBuf (2 + i) = Memory.read s.inBuf i

/-- TEXT_OUT writes the header `81 L` of R82 and the L payload bytes; LEN7 of 126 and 127 is no header
and gives PAYLOAD_TOO_LONG (R141). That TEXT_OUT is an instruction of its own is the model's choice (log
entry 8). -/
def Obligations.TextOutEmitsHeaderAndPayload : Prop :=
  ∀ (s : State) (l : BitVec 7) (payload : List Byte),
    (125 < l.toNat → exec (.textOut l) s = .next (s.failed .payloadTooLong)) ∧
    (l.toNat ≤ 125 → payload.length = l.toNat → (∀ i, i < l.toNat → Memory.read s.inBuf i = payload[i]?) →
      exec (.textOut l) s = .next
        { s with
          status := .ok
          outBuf := Memory.writeBytes s.outBuf 0 (0x81 :: l.setWidth 8 :: payload)
          outLen := BitVec.ofNat 32 (2 + l.toNat)
          auxLen := 0 })

/-! ### The decoder (spec/42_decoder.md) -/

/-- R161: a chunk shorter than 6 bytes gives TRUNCATED_FRAME with opcode 0 before any byte of it is
read, under DECODE, FEED and each wire instruction (log entry 9). -/
def Obligations.ShortChunkIsTruncatedUnread : Prop :=
  ∀ s : State, s.inLen.toNat ≤ s.cfg.bufCap → s.inLen.toNat < 6 →
    exec .decode s = .next (s.decodeFailed .truncatedFrame 0) ∧
    (s.session = .opened →
      exec .feed s = .next { s.decodeFailed .truncatedFrame 0 with session := .closed }) ∧
    ∀ b : Byte, exec (decodeFrameByte b) s = .next (s.decodeFailed .truncatedFrame 0)

/-- From R163 and R178: a Close frame gives CLOSE_SIGNAL at once, whatever bits 7 to 4 of byte 0 and all
later bytes are, written or not. The clause on CLOSE itself holds whatever `IN[0]` is: that such an
instruction takes its opcode from the constructor is the model's choice, log entry 9. -/
def Obligations.CloseFrameGivesCloseSignal : Prop :=
  ∀ s : State, s.inLen.toNat ≤ s.cfg.bufCap → 6 ≤ s.inLen.toNat →
    (∀ fin rsv, exec (.close fin rsv) s = .next (s.decodeFailed .closeSignal 8)) ∧
    (∀ b : Byte, b.toNat % 16 = 8 → Memory.read s.inBuf 0 = some b →
      exec .decode s = .next (s.decodeFailed .closeSignal 8) ∧
      (s.session = .opened →
        exec .feed s = .next { s.decodeFailed .closeSignal 8 with session := .closed }))

/-- From R164 (IGNORED at once, with the opcode in DEC_OPCODE, for any opcode other than 0x1 and 0x8) and
R216 (FEED leaves the session Open). The clause on the fourteen wire instructions holds whatever `IN[0]`
is: that such an instruction takes its opcode from the constructor is the model's choice, log entry 9. -/
def Obligations.OtherOpcodesAreIgnored : Prop :=
  ∀ s : State, s.inLen.toNat ≤ s.cfg.bufCap → 6 ≤ s.inLen.toNat →
    (∀ fin rsv,
      exec (.ignored0 fin rsv) s = .next (s.decodeFailed .ignored 0x0) ∧
      exec (.ignored2 fin rsv) s = .next (s.decodeFailed .ignored 0x2) ∧
      exec (.ignored3 fin rsv) s = .next (s.decodeFailed .ignored 0x3) ∧
      exec (.ignored4 fin rsv) s = .next (s.decodeFailed .ignored 0x4) ∧
      exec (.ignored5 fin rsv) s = .next (s.decodeFailed .ignored 0x5) ∧
      exec (.ignored6 fin rsv) s = .next (s.decodeFailed .ignored 0x6) ∧
      exec (.ignored7 fin rsv) s = .next (s.decodeFailed .ignored 0x7) ∧
      exec (.ignored9 fin rsv) s = .next (s.decodeFailed .ignored 0x9) ∧
      exec (.ignoredA fin rsv) s = .next (s.decodeFailed .ignored 0xA) ∧
      exec (.ignoredB fin rsv) s = .next (s.decodeFailed .ignored 0xB) ∧
      exec (.ignoredC fin rsv) s = .next (s.decodeFailed .ignored 0xC) ∧
      exec (.ignoredD fin rsv) s = .next (s.decodeFailed .ignored 0xD) ∧
      exec (.ignoredE fin rsv) s = .next (s.decodeFailed .ignored 0xE) ∧
      exec (.ignoredF fin rsv) s = .next (s.decodeFailed .ignored 0xF)) ∧
    (∀ b : Byte, b.toNat % 16 ≠ 1 → b.toNat % 16 ≠ 8 → Memory.read s.inBuf 0 = some b →
      exec .decode s = .next (s.decodeFailed .ignored (BitVec.ofNat 4 b.toNat)) ∧
      (s.session = .opened → exec .feed s = .next (s.decodeFailed .ignored (BitVec.ofNat 4 b.toNat))))

/-- R162: the opcode is `IN[0] & 0x0F`, and bits 7 to 4 of byte 0 never affect the result. -/
def Obligations.HighBitsOfByte0NeverMatter : Prop :=
  ∀ (i : Instr) (s : State) (b b' : Byte), (i = .decode ∨ i = .feed) →
    Memory.read s.inBuf 0 = some b → b.toNat % 16 = b'.toNat % 16 →
    let m := Memory.write s.inBuf 0 b'
    (∀ t, exec i s = .next t → exec i { s with inBuf := m } = .next { t with inBuf := m }) ∧
    (∀ f, exec i s = .fault f → exec i { s with inBuf := m } = .fault f) ∧
    (∀ t, s.inLen.toNat ≤ s.cfg.bufCap → 6 ≤ s.inLen.toNat → exec .decode s = .next t →
      t.decOpcode.toNat = b.toNat % 16)

/-- From R166: with CHECK_MASK = 1 a Text frame whose mask bit is clear gives UNMASKED_CLIENT_FRAME, with
nothing after byte 1 read, under DECODE, under FEED, which closes the session (R215), and under TEXT; with
CHECK_MASK = 0 the mask bit changes nothing in any of them. The clauses on TEXT hold whatever `IN[0]` is:
that it takes its opcode from the constructor is the model's choice, log entry 9. -/
def Obligations.MaskBitIsCheckedOnlyUnderCheckMask : Prop :=
  ∀ (s : State) (b1 : Byte) (fin : Bool) (rsv : BitVec 3),
    s.inLen.toNat ≤ s.cfg.bufCap → 6 ≤ s.inLen.toNat → Memory.read s.inBuf 1 = some b1 →
    (s.cfg.checkMask = true → b1.toNat < 128 →
      exec (.text fin rsv) s = .next (s.decodeFailed .unmaskedClientFrame 1) ∧
      (∀ b0 : Byte, Memory.read s.inBuf 0 = some b0 → b0.toNat % 16 = 1 →
        exec .decode s = .next (s.decodeFailed .unmaskedClientFrame 1) ∧
        (s.session = .opened →
          exec .feed s = .next { s.decodeFailed .unmaskedClientFrame 1 with session := .closed }))) ∧
    (s.cfg.checkMask = false →
      let m := Memory.write s.inBuf 1 (b1 ^^^ 0x80)
      ∀ i : Instr, (i = .decode ∨ i = .feed ∨ i = .text fin rsv) →
        (∀ t, exec i s = .next t → exec i { s with inBuf := m } = .next { t with inBuf := m }) ∧
        (∀ f, exec i s = .fault f → exec i { s with inBuf := m } = .fault f))

/-- R167, with the outputs of R175: in LITERAL, and in RFC for LEN7 up to 125, `L = LEN7`, the key is at
offset 2 and the payload at offset 6; a whole frame decodes OK, bytes after it are dropped. -/
def Obligations.TextFrameWithOneByteLength : Prop :=
  ∀ (s : State) (b0 b1 k0 k1 k2 k3 : Byte) (masked rest : List Byte) (fin : Bool) (rsv : BitVec 3),
    s.InputIs ([b0, b1, k0, k1, k2, k3] ++ masked ++ rest) → s.inLen.toNat ≤ s.cfg.bufCap →
    b0.toNat % 16 = 1 → (s.cfg.checkMask = true → 128 ≤ b1.toNat) →
    (s.cfg.lenMode = .literal ∨ b1.toNat % 128 ≤ 125) → masked.length = b1.toNat % 128 →
    let t := s.decodedText k0 k1 k2 k3 (maskBytes k0 k1 k2 k3 masked)
    exec .decode s = .next t ∧ exec (.text fin rsv) s = .next t ∧
      (s.session = .opened → exec .feed s = .next t)

/-- The 16-bit form of R168: RFC, LEN7 = 126, big-endian length in bytes 2 to 3, key at offset 4. -/
def Obligations.TextFrameWith16BitLength : Prop :=
  ∀ (s : State) (b0 b1 l0 l1 k0 k1 k2 k3 : Byte) (masked rest : List Byte) (fin : Bool) (rsv : BitVec 3),
    s.InputIs ([b0, b1, l0, l1, k0, k1, k2, k3] ++ masked ++ rest) → s.inLen.toNat ≤ s.cfg.bufCap →
    b0.toNat % 16 = 1 → (s.cfg.checkMask = true → 128 ≤ b1.toNat) →
    s.cfg.lenMode = .rfc → b1.toNat % 128 = 126 → masked.length = l0.toNat * 256 + l1.toNat →
    let t := s.decodedText k0 k1 k2 k3 (maskBytes k0 k1 k2 k3 masked)
    exec .decode s = .next t ∧ exec (.text fin rsv) s = .next t ∧
      (s.session = .opened → exec .feed s = .next t)

/-- The 64-bit form of R168: RFC, LEN7 = 127, big-endian length in bytes 2 to 9, key at offset 10. -/
def Obligations.TextFrameWith64BitLength : Prop :=
  ∀ (s : State) (b0 b1 k0 k1 k2 k3 : Byte) (ext masked rest : List Byte) (fin : Bool) (rsv : BitVec 3),
    s.InputIs ([b0, b1] ++ ext ++ [k0, k1, k2, k3] ++ masked ++ rest) → s.inLen.toNat ≤ s.cfg.bufCap →
    b0.toNat % 16 = 1 → (s.cfg.checkMask = true → 128 ≤ b1.toNat) →
    s.cfg.lenMode = .rfc → b1.toNat % 128 = 127 → ext.length = 8 →
    masked.length = ((List.range 8).map fun j => (ext.getD j 0).toNat * 2 ^ (8 * (7 - j))).sum →
    let t := s.decodedText k0 k1 k2 k3 (maskBytes k0 k1 k2 k3 masked)
    exec .decode s = .next t ∧ exec (.text fin rsv) s = .next t ∧
      (s.session = .opened → exec .feed s = .next t)

/-- The header checks of R168: in RFC, LEN7 = 126 needs 8 bytes and LEN7 = 127 needs 14; a shorter chunk
gives TRUNCATED_FRAME with opcode 1, and no byte from offset 2 on is read. -/
def Obligations.ShortExtendedHeaderIsTruncated : Prop :=
  ∀ (s : State) (b0 b1 : Byte) (fin : Bool) (rsv : BitVec 3),
    s.inLen.toNat ≤ s.cfg.bufCap → 6 ≤ s.inLen.toNat →
    Memory.read s.inBuf 0 = some b0 → Memory.read s.inBuf 1 = some b1 → b0.toNat % 16 = 1 →
    (s.cfg.checkMask = true → 128 ≤ b1.toNat) → s.cfg.lenMode = .rfc →
    ((b1.toNat % 128 = 126 ∧ s.inLen.toNat < 8) ∨ (b1.toNat % 128 = 127 ∧ s.inLen.toNat < 14)) →
    exec .decode s = .next (s.decodeFailed .truncatedFrame 1) ∧
    exec (.text fin rsv) s = .next (s.decodeFailed .truncatedFrame 1)

/-- R170: the payload must lie wholly inside the chunk; in each of the three forms, a chunk with fewer
than L bytes from the payload offset on gives TRUNCATED_FRAME, and OUT_BUF is not written. -/
def Obligations.PayloadBeyondTheChunkIsTruncated : Prop :=
  ∀ (s : State) (b0 b1 k0 k1 k2 k3 : Byte) (ext body : List Byte) (fin : Bool) (rsv : BitVec 3) (len : Nat),
    s.InputIs ([b0, b1] ++ ext ++ [k0, k1, k2, k3] ++ body) → s.inLen.toNat ≤ s.cfg.bufCap →
    b0.toNat % 16 = 1 → (s.cfg.checkMask = true → 128 ≤ b1.toNat) →
    (((s.cfg.lenMode = .literal ∨ b1.toNat % 128 ≤ 125) ∧ ext.length = 0 ∧ len = b1.toNat % 128) ∨
     (s.cfg.lenMode = .rfc ∧ b1.toNat % 128 = 126 ∧ ext.length = 2 ∧
        len = (ext.getD 0 0).toNat * 256 + (ext.getD 1 0).toNat) ∨
     (s.cfg.lenMode = .rfc ∧ b1.toNat % 128 = 127 ∧ ext.length = 8 ∧
        len = ((List.range 8).map fun j => (ext.getD j 0).toNat * 2 ^ (8 * (7 - j))).sum)) →
    body.length < len →
    exec .decode s = .next (s.decodeFailed .truncatedFrame 1) ∧
    exec (.text fin rsv) s = .next (s.decodeFailed .truncatedFrame 1) ∧
    (s.session = .opened →
      exec .feed s = .next { s.decodeFailed .truncatedFrame 1 with session := .closed })

/-- After a decode with result OK: the opcode is Text, LEN_MODE and LEN7 fix the payload offset p (R167,
R168), OUT_LEN and DEC_LEN are the length the header gives, DEC_MASKKEY is `IN[p-4..p)` (R30, R169), and
each output byte is the payload byte of its index XORed with the key byte for that index (R171). -/
def Obligations.DecodedOutputIsUnmaskedBytewise : Prop :=
  ∀ s t : State, exec .decode s = .next t → t.status = .ok →
    t.decOpcode = 1 ∧ t.decLen.toNat = t.outLen.toNat ∧ t.outLen.toNat + 6 ≤ s.inLen.toNat ∧
    ∃ b1, Memory.read s.inBuf 1 = some b1 ∧
      let p := payloadOffset s.cfg.lenMode b1
      p + t.outLen.toNat ≤ s.inLen.toNat ∧
      (∃ ext : List Byte, ext.length = p - 6 ∧ (∀ j, j < p - 6 → Memory.read s.inBuf (2 + j) = ext[j]?) ∧
        t.outLen.toNat = textLength b1 ext) ∧
      (∀ j, j < 4 → Memory.read s.inBuf (p - 4 + j) = some (t.decMaskKey.extractLsb' (8 * (3 - j)) 8)) ∧
      ∀ i, i < t.outLen.toNat → ∃ x, Memory.read s.inBuf (p + i) = some x ∧
        Memory.read t.outBuf i = some (x ^^^ t.decMaskKey.extractLsb' (8 * (3 - i % 4)) 8)

/-- R177: masking is its own inverse. The frame `81 (80|L) M mask(P, M)` decodes OK to P, for every
payload P of 0 to 125 bytes and every key M, in both LEN_MODEs and with either CHECK_MASK. -/
def Obligations.MaskedFrameDecodesToItsPayload : Prop :=
  ∀ (s : State) (m0 m1 m2 m3 : Byte) (payload : List Byte), payload.length ≤ 125 →
    s.InputIs ([0x81, 0x80 ||| BitVec.ofNat 8 payload.length, m0, m1, m2, m3] ++ maskBytes m0 m1 m2 m3 payload) →
    s.inLen.toNat ≤ s.cfg.bufCap →
    ∃ t, exec .decode s = .next t ∧ t.status = .ok ∧ t.outLen.toNat = payload.length ∧
      ∀ i, i < payload.length → Memory.read t.outBuf i = payload[i]?

/-- R173: any chunk of 0 to BUF_CAP bytes that the host has written ends, under DECODE and under FEED in
an open session, in exactly one of five results; IN_BUF is never written, nor by DECODE the session. -/
def Obligations.EveryWrittenChunkDecodesToOneOfFiveResults : Prop :=
  ∀ s : State, s.inLen.toNat ≤ s.cfg.bufCap → s.inputWritten = true →
    (∃ t, exec .decode s = .next t ∧
      (t.status = .ok ∨ t.status = .closeSignal ∨ t.status = .ignored ∨ t.status = .truncatedFrame ∨
        t.status = .unmaskedClientFrame) ∧ t.inBuf = s.inBuf ∧ t.session = s.session) ∧
    (s.session = .opened → ∃ t, exec .feed s = .next t ∧
      (t.status = .ok ∨ t.status = .closeSignal ∨ t.status = .ignored ∨ t.status = .truncatedFrame ∨
        t.status = .unmaskedClientFrame) ∧ t.inBuf = s.inBuf)

/-! ### Input bytes that the host has not written (spec/70_reset_and_hazards.md R274) -/

/-- From R274, with U7 and D44: SIGN, ENCODE and UPGRADE with a key stop at the first input byte that no
host write has set since reset, where their pre-checks let them read it. TEXT_OUT does so for the bytes
of its payload (log entry 8). That the fault names the first such byte is DEDUCED, log entry 2. -/
def Obligations.UnwrittenInputStopsTheCommand : Prop :=
  ∀ (s : State) (i : Nat), s.firstUnwritten i →
    (s.inLen.toNat ≤ s.cfg.bufCap → i < s.inLen.toNat →
      exec .sign s = .fault (.unwrittenInput i) ∧
      (s.inLen.toNat ≤ 125 → exec .encode s = .fault (.unwrittenInput i)) ∧
      (s.session = .handshaking → exec (.upgrade true) s = .fault (.unwrittenInput i))) ∧
    ∀ l : BitVec 7, l.toNat ≤ 125 → i < l.toNat → exec (.textOut l) s = .fault (.unwrittenInput i)

/-- From R274, with U7 and D44: DECODE, and FEED in an open session, stop at the first unwritten byte of
the path that R160 takes: byte 0, byte 1 of a Text frame, its header up to the payload, and its payload
where that lies in the chunk; TEXT likewise from byte 1 on. That the bytes are read in this order is
DEDUCED, log entry 2. -/
def Obligations.UnwrittenChunkByteStopsTheDecode : Prop :=
  ∀ s : State, s.inLen.toNat ≤ s.cfg.bufCap → 6 ≤ s.inLen.toNat →
    (s.firstUnwritten 0 → s.decodeStopsAt 0) ∧
    ∀ b0 : Byte, Memory.read s.inBuf 0 = some b0 → b0.toNat % 16 = 1 →
      (s.firstUnwritten 1 → s.decodeStopsAt 1) ∧
      ∀ b1 : Byte, Memory.read s.inBuf 1 = some b1 → (s.cfg.checkMask = true → 128 ≤ b1.toNat) →
        let p := payloadOffset s.cfg.lenMode b1
        p ≤ s.inLen.toNat →
        (∀ i, i < p → s.firstUnwritten i → s.decodeStopsAt i) ∧
        ∀ ext : List Byte, ext.length = p - 6 → (∀ j, j < p - 6 → Memory.read s.inBuf (2 + j) = ext[j]?) →
          p + textLength b1 ext ≤ s.inLen.toNat →
          ∀ i, i < p + textLength b1 ext → s.firstUnwritten i → s.decodeStopsAt i

/-! ### The session (spec/43_session.md) -/

/-- R215: FEED is BAD_STATE unless Open and BAD_LENGTH beyond the buffer, both leaving the session; else
it is DECODE, and the session closes on CLOSE_SIGNAL, TRUNCATED_FRAME and UNMASKED_CLIENT_FRAME. -/
def Obligations.FeedIsDecodeWithTheSessionTransition : Prop :=
  decodeCommandWord 0x00000005 = .feed ∧
  ∀ s : State,
    (s.session ≠ .opened → exec .feed s = .next (s.failed .badState)) ∧
    (s.session = .opened → s.cfg.bufCap < s.inLen.toNat → exec .feed s = .next (s.failed .badLength)) ∧
    (s.session = .opened → s.inLen.toNat ≤ s.cfg.bufCap → s.inputWritten = true →
      ∃ t, exec .decode s = .next t ∧
        exec .feed s = .next
          (if t.status = .closeSignal ∨ t.status = .truncatedFrame ∨ t.status = .unmaskedClientFrame
            then { t with session := .closed } else t))

/-- R204 to R206: UPGRADE in each of its results; on OK the 130-byte header with the token, the greeting
frame, OUT_LEN and AUX_LEN, and the session opens. -/
def Obligations.UpgradeOpensTheSession : Prop :=
  decodeCommandWord 0x00000004 = .upgrade false ∧ decodeCommandWord 0x00000104 = .upgrade true ∧
  ∀ (s : State) (kp : Bool) (key : List Byte),
    (s.session ≠ .handshaking → exec (.upgrade kp) s = .next (s.failed .badState)) ∧
    (s.session = .handshaking → exec (.upgrade false) s = .next (s.failed .missingKey)) ∧
    (s.session = .handshaking → s.cfg.bufCap < s.inLen.toNat →
      exec (.upgrade true) s = .next (s.failed .badLength)) ∧
    (s.session = .handshaking → s.inLen.toNat ≤ s.cfg.bufCap → s.InputIs key →
      exec (.upgrade true) s = .next
        { s with
          status := .ok
          session := .opened
          outBuf := Memory.writeBytes s.outBuf 0
            (asciiBytes "HTTP/1.1 101 Web Socket Protocols" ++ [0x0D, 0x0A] ++
              asciiBytes "Upgrade: WebSocket" ++ [0x0D, 0x0A] ++
              asciiBytes "Connection: Upgrade" ++ [0x0D, 0x0A] ++
              asciiBytes "Sec-WebSocket-Accept: " ++ acceptToken key ++ [0x0D, 0x0A] ++ [0x0D, 0x0A] ++
              [0x81, BitVec.ofNat 8 s.cfg.greeting.length] ++ s.cfg.greeting)
          outLen := BitVec.ofNat 32 (130 + 2 + s.cfg.greeting.length)
          auxLen := 130 })

/-- Where an UPGRADE finishing OK puts its pieces: the token at `OUT[98..126)`, the greeting frame at
`OUT[AUX_LEN..OUT_LEN)`. -/
def Obligations.UpgradeOutputLayout : Prop :=
  ∀ (s t : State) (key : List Byte), s.cfg.wf = true → s.InputIs key → exec (.upgrade true) s = .next t →
    t.status = .ok →
    t.auxLen = 130 ∧ t.outLen.toNat = 132 + s.cfg.greeting.length ∧
    (∀ j, j < 28 → Memory.read t.outBuf (98 + j) = (acceptToken key)[j]?) ∧
    Memory.read t.outBuf 130 = some 0x81 ∧
    Memory.read t.outBuf 131 = some (BitVec.ofNat 8 s.cfg.greeting.length) ∧
    ∀ j, j < s.cfg.greeting.length → Memory.read t.outBuf (132 + j) = s.cfg.greeting[j]?

/-- R200: these are all the transitions of SESSION.STATE, over every host access. -/
def Obligations.SessionTransitions : Prop :=
  ∀ (s t : State) (a : HostAccess) (rest : List HostAccess), s.program = a :: rest → step s = .next t →
    let closes := t.status = .closeSignal ∨ t.status = .truncatedFrame ∨ t.status = .unmaskedClientFrame
    (t.session = s.session ∨
      (s.session = .handshaking ∧ t.session = .opened ∧ a = .write 0 4 0x104 ∧ t.status = .ok) ∨
      (s.session = .opened ∧ t.session = .closed ∧ a = .write 0 4 5 ∧ closes) ∨
      (t.session = .closed ∧ a = .write 0 4 6) ∨
      (t.session = .handshaking ∧ a = .reset)) ∧
    (s.session = .handshaking → a = .write 0 4 0x104 → t.status = .ok → t.session = .opened) ∧
    (s.session = .opened → a = .write 0 4 5 → closes → t.session = .closed) ∧
    (a = .write 0 4 6 → t.session = .closed) ∧
    (a = .reset → t.session = .handshaking)

/-- R201: Closed is terminal until reset. No run of host accesses without a reset leaves it; FEED and
UPGRADE finish with BAD_STATE and process nothing; SIGN, ENCODE, DECODE and DISCONNECT stay legal. -/
def Obligations.ClosedIsTerminalUntilReset : Prop :=
  ∀ s : State, s.session = .closed →
    (∀ (k : Nat) (t : State), HostAccess.reset ∉ s.program → core.run k s = .next t → t.session = .closed) ∧
    exec .feed s = .next (s.failed .badState) ∧
    (∀ kp, exec (.upgrade kp) s = .next (s.failed .badState)) ∧
    (∀ i, (i = .sign ∨ i = .encode ∨ i = .decode) → s.inLen.toNat ≤ s.cfg.bufCap → s.inputWritten = true →
      ∃ t, exec i s = .next t ∧ t.status ≠ .badState ∧ t.session = .closed) ∧
    exec .disconnect s = .next { s with status := .ok, outLen := 0, auxLen := 0 }

/-! ### Instances (spec/60_exceptions.md R252) -/

/-- Instances share no state: a step of one leaves every other as it is, and what it does depends on
that instance alone. -/
def Obligations.InstancesAreIsolated : Prop :=
  ∀ (sys sys' : System) (k : Nat), sys.stepAt k = .next sys' →
    sys'.length = sys.length ∧ (∀ j, j ≠ k → sys'[j]? = sys[j]?) ∧
    ∀ other : System, other[k]? = sys[k]? →
      ∃ other', System.stepAt other k = .next other' ∧ other'[k]? = sys'[k]?
end

