-- ==== Sys2Proof/Laws/Encoding.lean ====
section
/-! SUPPORT. The fields of a command word, of a frame's byte 0 and of byte 1, and what they decode to. -/

namespace Sys2Proof

theorem commandWord_op (op lo : BitVec 4) (kp : Bool) (hi : BitVec 23) :
    (commandWord op lo kp hi).extractLsb' 0 4 = op := by
  unfold commandWord
  apply BitVec.eq_of_getLsbD_eq
  intro i h
  simp only [BitVec.getLsbD_extractLsb', BitVec.getLsbD_append, h, decide_true, Bool.true_and, Nat.zero_add, if_true]

theorem commandWord_rsvdLo (op lo : BitVec 4) (kp : Bool) (hi : BitVec 23) :
    (commandWord op lo kp hi).extractLsb' 4 4 = lo := by
  unfold commandWord
  apply BitVec.eq_of_getLsbD_eq
  intro i h
  simp only [BitVec.getLsbD_extractLsb', BitVec.getLsbD_append, h, decide_true, Bool.true_and]
  rw [if_neg (by omega), show 4 + i - 4 = i by omega, if_pos h]

theorem commandWord_kp (op lo : BitVec 4) (kp : Bool) (hi : BitVec 23) :
    (commandWord op lo kp hi).getLsbD 8 = kp := by
  unfold commandWord
  simp only [BitVec.getLsbD_append, BitVec.getLsbD_ofBool]
  simp

theorem commandWord_rsvdHi (op lo : BitVec 4) (kp : Bool) (hi : BitVec 23) :
    (commandWord op lo kp hi).extractLsb' 9 23 = hi := by
  unfold commandWord
  apply BitVec.eq_of_getLsbD_eq
  intro i h
  simp only [BitVec.getLsbD_extractLsb', BitVec.getLsbD_append, h, decide_true, Bool.true_and]
  rw [if_neg (by omega), if_neg (by omega), if_neg (by omega), show 9 + i - 4 - 4 - 1 = i by omega]

/-- A command word is the word of its fields (R70). -/
theorem commandWord_fields (w : Word) :
    commandWord (w.extractLsb' 0 4) (w.extractLsb' 4 4) (w.getLsbD 8) (w.extractLsb' 9 23) = w := by
  unfold commandWord
  apply BitVec.eq_of_getLsbD_eq
  intro i hi
  simp only [BitVec.getLsbD_append, BitVec.getLsbD_extractLsb', BitVec.getLsbD_ofBool]
  split
  · simp_all
  · split
    · rename_i a b
      simp only [b, decide_true, Bool.true_and]
      congr 1; omega
    · split
      · rename_i a b c
        have : i = 8 := by omega
        subst this; simp
      · rename_i a b c
        have : i - 4 - 4 - 1 < 23 := by omega
        simp only [this, decide_true, Bool.true_and]
        congr 1; omega

theorem word_op_toNat (w : Word) : (w.extractLsb' 0 4).toNat = w.toNat % 16 := by simp

theorem word_rsvdLo_toNat (w : Word) : (w.extractLsb' 4 4).toNat = w.toNat / 16 % 16 := by
  simp [Nat.shiftRight_eq_div_pow]

theorem word_rsvdHi_toNat (w : Word) : (w.extractLsb' 9 23).toNat = w.toNat / 512 := by
  have := w.isLt
  simp [Nat.shiftRight_eq_div_pow]; omega

theorem word_kp (w : Word) : w.getLsbD 8 = decide (w.toNat / 256 % 2 = 1) := by
  simp only [BitVec.getLsbD, Nat.testBit_eq_decide_div_mod_eq]

/-- The fields are reserved exactly on the reserved words (R72). -/
theorem reservedFields_iff (w : Word) :
    reservedFields (w.extractLsb' 0 4) (w.extractLsb' 4 4) (w.getLsbD 8) (w.extractLsb' 9 23) = true ↔
      Machine.reservedWord w := by
  unfold reservedFields Machine.reservedWord
  have h0 : ∀ {n : Nat} (x : BitVec n), x ≠ 0 ↔ x.toNat ≠ 0 := by
    intro n x; rw [ne_eq, ← BitVec.toNat_inj]; simp
  have h4 : w.extractLsb' 0 4 ≠ 4 ↔ w.toNat % 16 ≠ 4 := by
    rw [ne_eq, ← BitVec.toNat_inj, word_op_toNat]; rfl
  rw [← word_op_toNat] at h4
  simp only [Bool.or_eq_true, Bool.and_eq_true, decide_eq_true_eq, h0, word_kp, h4, word_op_toNat, word_rsvdLo_toNat, word_rsvdHi_toNat, or_assoc]

/-- With no reserved field a word has a command, and only then (R70, R72). -/
theorem decodeOp_spec : ∀ (op : BitVec 4) (kp : Bool),
    decodeOp op kp = none ↔ reservedFields op 0 kp 0 = true := by decide

theorem decodeCommandWord_reserved {w : Word} (h : Machine.reservedWord w) :
    decodeCommandWord w =
      .reservedCmd (w.extractLsb' 0 4) (w.extractLsb' 4 4) (w.getLsbD 8) (w.extractLsb' 9 23) := by
  have hr := (reservedFields_iff w).2 h
  unfold decodeCommandWord
  simp only
  split
  · rename_i h0
    rw [h0.1, h0.2] at hr ⊢
    rw [(decodeOp_spec _ _).2 hr]; rfl
  · rfl

/-! ### Frame bytes -/

theorem opcodeNibble_toNat (b : Byte) : (opcodeNibble b).toNat = b.toNat % 16 := by simp [opcodeNibble]

theorem len7Field_toNat (b : Byte) : (len7Field b).toNat = b.toNat % 128 := by simp [len7Field]

theorem maskBit_eq (b : Byte) : maskBit b = decide (128 ≤ b.toNat) := by revert b; decide

theorem opcodeNibble_frameByte0 : ∀ (fin : Bool) (rsv : BitVec 3) (op : BitVec 4),
    opcodeNibble (frameByte0 fin rsv op) = op := by decide

theorem finBit_frameByte0 : ∀ (fin : Bool) (rsv : BitVec 3) (op : BitVec 4),
    finBit (frameByte0 fin rsv op) = fin := by decide

theorem rsvBits_frameByte0 : ∀ (fin : Bool) (rsv : BitVec 3) (op : BitVec 4),
    rsvBits (frameByte0 fin rsv op) = rsv := by decide

theorem decodeFrameByte_text {b : Byte} (h : b.toNat % 16 = 1) :
    decodeFrameByte b = .text (finBit b) (rsvBits b) := by
  revert b; decide

theorem decodeFrameByte_close {b : Byte} (h : b.toNat % 16 = 8) :
    decodeFrameByte b = .close (finBit b) (rsvBits b) := by
  revert b; decide

end Sys2Proof
end

