-- ==== Sys2Proof/Laws/Memory.lean ====
section
/-! SUPPORT. The laws of a buffer: read after write, and every operation keeps the canonical form and
the bound. -/

namespace Sys2Proof.Machine

open Sys2Proof

@[simp] theorem Memory.read_nil (a : Nat) : Memory.read [] a = none := rfl

@[simp] theorem Memory.read_write_same (m : Memory) (a : Nat) (b : Byte) :
    Memory.read (Memory.write m a b) a = some b := by
  induction m with
  | nil => simp [Memory.write, Memory.read]
  | cons c m ih =>
    obtain ⟨k, c⟩ := c
    simp only [Memory.write]
    split
    · simp [Memory.read]
    · split
      · simp [Memory.read]
      · rename_i h1 h2
        simp [Memory.read, Ne.symm h2, ih]

theorem Memory.read_write_other (m : Memory) {a i : Nat} (b : Byte) (h : i ≠ a) :
    Memory.read (Memory.write m a b) i = Memory.read m i := by
  induction m with
  | nil => simp [Memory.write, Memory.read, Ne.symm h]
  | cons c m ih =>
    obtain ⟨k, c⟩ := c
    simp only [Memory.write]
    split
    · simp [Memory.read, Ne.symm h]
    · split
      · rename_i h2; subst h2
        simp [Memory.read, Ne.symm h]
      · simp [Memory.read, ih]

/-- Reading after a write, in one equation. -/
theorem Memory.read_write (m : Memory) (a i : Nat) (b : Byte) :
    Memory.read (Memory.write m a b) i = if i = a then some b else Memory.read m i := by
  split
  · rename_i h; subst h; simp
  · rename_i h; exact Memory.read_write_other m b h

/-- Reading after a run of writes: the bytes written, and every other byte as before. -/
theorem Memory.read_writeBytes (bs : List Byte) : ∀ (m : Memory) (a i : Nat),
    Memory.read (Memory.writeBytes m a bs) i =
      if a ≤ i ∧ i < a + bs.length then bs[i - a]? else Memory.read m i := by
  induction bs with
  | nil => intro m a i; simp [Memory.writeBytes]
  | cons b bs ih =>
    intro m a i
    simp only [Memory.writeBytes, ih, Memory.read_write, List.length_cons]
    by_cases h : i = a
    · subst h; simp
    · by_cases h1 : a + 1 ≤ i ∧ i < a + 1 + bs.length
      · have : i - a = (i - (a + 1)) + 1 := by omega
        rw [if_pos h1, if_pos (by omega), this, List.getElem?_cons_succ]
      · rw [if_neg h1, if_neg h, if_neg (by omega)]

theorem Memory.read_writeBytes_zero (m : Memory) (bs : List Byte) (i : Nat) :
    Memory.read (Memory.writeBytes m 0 bs) i = if i < bs.length then bs[i]? else Memory.read m i := by
  simp [Memory.read_writeBytes]

/-- The indexes of a buffer after a write. -/
theorem Memory.mem_write {m : Memory} {a : Nat} {b : Byte} {c : Host.Cell}
    (h : c ∈ Memory.write m a b) : c.1 = a ∨ c ∈ m := by
  induction m with
  | nil => simp [Memory.write] at h; simp [h]
  | cons d m ih =>
    obtain ⟨k, e⟩ := d
    simp only [Memory.write] at h
    split at h
    · rcases List.mem_cons.1 h with h | h
      · simp [h]
      · exact .inr h
    · split at h
      · rcases List.mem_cons.1 h with h | h
        · simp [h]
        · exact .inr (List.mem_cons_of_mem _ h)
      · rcases List.mem_cons.1 h with h | h
        · simp [h]
        · rcases ih h with h | h
          · exact .inl h
          · exact .inr (List.mem_cons_of_mem _ h)

/-- A write keeps the canonical form. -/
theorem Memory.wf_write {m : Memory} (a : Nat) (b : Byte) (h : Memory.wf m) :
    Memory.wf (Memory.write m a b) := by
  induction m with
  | nil => simp [Memory.write, Memory.wf]
  | cons d m ih =>
    obtain ⟨k, e⟩ := d
    simp only [Memory.wf, List.map_cons, List.pairwise_cons, List.mem_map] at h
    obtain ⟨hk, hm⟩ := h
    simp only [Memory.write]
    split
    · rename_i hlt
      simp only [Memory.wf, List.map_cons, List.pairwise_cons, List.mem_cons, List.mem_map]
      refine ⟨?_, ?_, hm⟩
      · rintro x (rfl | ⟨c, hc, rfl⟩)
        · exact hlt
        · exact lt_trans hlt (hk _ ⟨c, hc, rfl⟩)
      · rintro x ⟨c, hc, rfl⟩; exact hk _ ⟨c, hc, rfl⟩
    · split
      · rename_i h2; subst h2
        simp only [Memory.wf, List.map_cons, List.pairwise_cons, List.mem_map]
        exact ⟨hk, hm⟩
      · rename_i h1 h2
        simp only [Memory.wf, List.map_cons, List.pairwise_cons, List.mem_map]
        refine ⟨?_, ih hm⟩
        rintro x ⟨c, hc, rfl⟩
        rcases Memory.mem_write hc with hc | hc
        · omega
        · exact hk _ ⟨c, hc, rfl⟩

theorem Memory.below_write {m : Memory} {cap a : Nat} (b : Byte) (ha : a < cap)
    (h : Memory.below m cap) : Memory.below (Memory.write m a b) cap := by
  intro c hc
  rcases Memory.mem_write hc with hc | hc
  · omega
  · exact h c hc

theorem Memory.wf_writeBytes (bs : List Byte) : ∀ {m : Memory} (a : Nat), Memory.wf m →
    Memory.wf (Memory.writeBytes m a bs) := by
  induction bs with
  | nil => intro m a h; exact h
  | cons b bs ih => intro m a h; exact ih (a + 1) (Memory.wf_write a b h)

theorem Memory.below_writeBytes (bs : List Byte) : ∀ {m : Memory} {cap a : Nat}, a + bs.length ≤ cap →
    Memory.below m cap → Memory.below (Memory.writeBytes m a bs) cap := by
  induction bs with
  | nil => intro m cap a _ h; exact h
  | cons b bs ih =>
    intro m cap a ha h
    simp only [List.length_cons] at ha
    exact ih (by omega) (Memory.below_write b (by omega) h)

/-- The buffers of a machine fresh from reset are canonical. -/
theorem resetOf_buffers_wf (c : Config) :
    Memory.wf (State.resetOf c).inBuf ∧ Memory.wf (State.resetOf c).outBuf := by
  simp [State.resetOf, Memory.wf]

/-! ### Reading the input -/

/-- A slice read succeeds with `bs` exactly if `bs` has the length and each byte was written. -/
theorem readInSlice_ok_iff (s : State) : ∀ (n a : Nat) (bs : List Byte),
    s.readInSlice a n = .ok bs ↔
      bs.length = n ∧ ∀ i, i < n → Memory.read s.inBuf (a + i) = bs[i]? := by
  intro n
  induction n with
  | zero =>
    intro a bs
    cases bs <;> simp [State.readInSlice]
  | succ n ih =>
    intro a bs
    simp only [State.readInSlice, State.readIn]
    cases hr : Memory.read s.inBuf a with
    | none =>
      simp only [reduceCtorEq, false_iff]
      rintro ⟨hl, h⟩
      have h0 := h 0 (by omega)
      rw [Nat.add_zero, hr] at h0
      cases bs with
      | nil => simp at hl
      | cons b bs => simp at h0
    | some b =>
      simp only
      constructor
      · intro h
        split at h
        · cases h
        · rename_i cs hcs
          cases h
          obtain ⟨hl, hi⟩ := (ih _ _).1 hcs
          refine ⟨by simp [hl], fun i hi' => ?_⟩
          cases i with
          | zero => simpa using hr
          | succ i =>
            have := hi i (by omega)
            rw [List.getElem?_cons_succ, ← this]; congr 1; omega
      · rintro ⟨hl, hi⟩
        cases bs with
        | nil => simp at hl
        | cons c cs =>
          have h0 := hi 0 (by omega)
          rw [Nat.add_zero, hr] at h0
          simp only [List.getElem?_cons_zero, Option.some.injEq] at h0
          have : s.readInSlice (a + 1) n = .ok cs := by
            refine (ih _ _).2 ⟨by simpa using hl, fun i hi' => ?_⟩
            have := hi (i + 1) (by omega)
            rw [List.getElem?_cons_succ] at this
            rw [← this]; congr 1; omega
          rw [this, h0]

/-- A read succeeds exactly on a written byte. -/
theorem readIn_ok_iff (s : State) (i : Nat) (b : Byte) :
    s.readIn i = .ok b ↔ Memory.read s.inBuf i = some b := by
  unfold State.readIn; split <;> simp_all

/-- Reading the input depends on IN_BUF only through the bytes of the slice. -/
theorem readInSlice_congr {s t : State} : ∀ (n a : Nat),
    (∀ i, i < n → Memory.read s.inBuf (a + i) = Memory.read t.inBuf (a + i)) →
      s.readInSlice a n = t.readInSlice a n := by
  intro n
  induction n with
  | zero => intro a _; rfl
  | succ n ih =>
    intro a h
    have h0 : Memory.read s.inBuf a = Memory.read t.inBuf a := by simpa using h 0 (by omega)
    have h1 : s.readInSlice (a + 1) n = t.readInSlice (a + 1) n := by
      refine ih (a + 1) fun i hi => ?_
      have := h (i + 1) (by omega)
      rwa [show a + (i + 1) = a + 1 + i by omega] at this
    simp only [State.readInSlice, State.readIn, h0, h1]

end Sys2Proof.Machine
end

