-- ==== Sys2Proof/Laws/State.lean ====
section
/-! SUPPORT. One lemma per field per update of the state, true by unfolding the update once. -/

namespace Sys2Proof.Machine

open Sys2Proof

/-! ### finishError -/

@[simp] theorem State.finishError_cfg (s : State) (r : Result) : (s.finishError r).cfg = s.cfg := rfl
@[simp] theorem State.finishError_status (s : State) (r : Result) : (s.finishError r).status = r := rfl
@[simp] theorem State.finishError_session (s : State) (r : Result) : (s.finishError r).session = s.session := rfl
@[simp] theorem State.finishError_inLen (s : State) (r : Result) : (s.finishError r).inLen = s.inLen := rfl
@[simp] theorem State.finishError_outLen (s : State) (r : Result) : (s.finishError r).outLen = 0 := rfl
@[simp] theorem State.finishError_auxLen (s : State) (r : Result) : (s.finishError r).auxLen = 0 := rfl
@[simp] theorem State.finishError_decOpcode (s : State) (r : Result) : (s.finishError r).decOpcode = s.decOpcode := rfl
@[simp] theorem State.finishError_decMaskKey (s : State) (r : Result) : (s.finishError r).decMaskKey = s.decMaskKey := rfl
@[simp] theorem State.finishError_decLenLo (s : State) (r : Result) : (s.finishError r).decLenLo = s.decLenLo := rfl
@[simp] theorem State.finishError_decLenHi (s : State) (r : Result) : (s.finishError r).decLenHi = s.decLenHi := rfl
@[simp] theorem State.finishError_inBuf (s : State) (r : Result) : (s.finishError r).inBuf = s.inBuf := rfl
@[simp] theorem State.finishError_outBuf (s : State) (r : Result) : (s.finishError r).outBuf = s.outBuf := rfl
@[simp] theorem State.finishError_epoch (s : State) (r : Result) : (s.finishError r).epoch = s.epoch := rfl
@[simp] theorem State.finishError_program (s : State) (r : Result) : (s.finishError r).program = s.program := rfl
@[simp] theorem State.finishError_readData (s : State) (r : Result) : (s.finishError r).readData = s.readData := rfl

/-! ### finishOutput -/

@[simp] theorem State.finishOutput_cfg (s : State) (bs : List Byte) (aux : Word) : (s.finishOutput bs aux).cfg = s.cfg := rfl
@[simp] theorem State.finishOutput_status (s : State) (bs : List Byte) (aux : Word) : (s.finishOutput bs aux).status = .ok := rfl
@[simp] theorem State.finishOutput_session (s : State) (bs : List Byte) (aux : Word) : (s.finishOutput bs aux).session = s.session := rfl
@[simp] theorem State.finishOutput_inLen (s : State) (bs : List Byte) (aux : Word) : (s.finishOutput bs aux).inLen = s.inLen := rfl
@[simp] theorem State.finishOutput_outLen (s : State) (bs : List Byte) (aux : Word) : (s.finishOutput bs aux).outLen = BitVec.ofNat 32 bs.length := rfl
@[simp] theorem State.finishOutput_auxLen (s : State) (bs : List Byte) (aux : Word) : (s.finishOutput bs aux).auxLen = aux := rfl
@[simp] theorem State.finishOutput_decOpcode (s : State) (bs : List Byte) (aux : Word) : (s.finishOutput bs aux).decOpcode = s.decOpcode := rfl
@[simp] theorem State.finishOutput_decMaskKey (s : State) (bs : List Byte) (aux : Word) : (s.finishOutput bs aux).decMaskKey = s.decMaskKey := rfl
@[simp] theorem State.finishOutput_decLenLo (s : State) (bs : List Byte) (aux : Word) : (s.finishOutput bs aux).decLenLo = s.decLenLo := rfl
@[simp] theorem State.finishOutput_decLenHi (s : State) (bs : List Byte) (aux : Word) : (s.finishOutput bs aux).decLenHi = s.decLenHi := rfl
@[simp] theorem State.finishOutput_inBuf (s : State) (bs : List Byte) (aux : Word) : (s.finishOutput bs aux).inBuf = s.inBuf := rfl
@[simp] theorem State.finishOutput_outBuf (s : State) (bs : List Byte) (aux : Word) : (s.finishOutput bs aux).outBuf = Memory.writeBytes s.outBuf 0 bs := rfl
@[simp] theorem State.finishOutput_epoch (s : State) (bs : List Byte) (aux : Word) : (s.finishOutput bs aux).epoch = s.epoch := rfl
@[simp] theorem State.finishOutput_program (s : State) (bs : List Byte) (aux : Word) : (s.finishOutput bs aux).program = s.program := rfl
@[simp] theorem State.finishOutput_readData (s : State) (bs : List Byte) (aux : Word) : (s.finishOutput bs aux).readData = s.readData := rfl

/-! ### applyReset -/

@[simp] theorem State.applyReset_cfg (s : State) : (s.applyReset).cfg = s.cfg := rfl
@[simp] theorem State.applyReset_status (s : State) : (s.applyReset).status = .idle := rfl
@[simp] theorem State.applyReset_session (s : State) : (s.applyReset).session = .handshaking := rfl
@[simp] theorem State.applyReset_inLen (s : State) : (s.applyReset).inLen = 0 := rfl
@[simp] theorem State.applyReset_outLen (s : State) : (s.applyReset).outLen = 0 := rfl
@[simp] theorem State.applyReset_auxLen (s : State) : (s.applyReset).auxLen = 0 := rfl
@[simp] theorem State.applyReset_decOpcode (s : State) : (s.applyReset).decOpcode = 0 := rfl
@[simp] theorem State.applyReset_decMaskKey (s : State) : (s.applyReset).decMaskKey = 0 := rfl
@[simp] theorem State.applyReset_decLenLo (s : State) : (s.applyReset).decLenLo = 0 := rfl
@[simp] theorem State.applyReset_decLenHi (s : State) : (s.applyReset).decLenHi = 0 := rfl
@[simp] theorem State.applyReset_inBuf (s : State) : (s.applyReset).inBuf = [] := rfl
@[simp] theorem State.applyReset_outBuf (s : State) : (s.applyReset).outBuf = [] := rfl
@[simp] theorem State.applyReset_epoch (s : State) : (s.applyReset).epoch = s.epoch + 1 := rfl
@[simp] theorem State.applyReset_program (s : State) : (s.applyReset).program = s.program := rfl
@[simp] theorem State.applyReset_readData (s : State) : (s.applyReset).readData = s.readData := rfl

/-! ### finishDecode: what R175 writes, by whether the result is OK -/

@[simp] theorem State.finishDecode_cfg (s : State) (d : Decoded) :
    (s.finishDecode d).cfg = s.cfg := by
  unfold State.finishDecode; split <;> simp_all
@[simp] theorem State.finishDecode_status (s : State) (d : Decoded) :
    (s.finishDecode d).status = d.res := by
  unfold State.finishDecode; split <;> simp_all
@[simp] theorem State.finishDecode_session (s : State) (d : Decoded) :
    (s.finishDecode d).session = s.session := by
  unfold State.finishDecode; split <;> simp_all
@[simp] theorem State.finishDecode_inLen (s : State) (d : Decoded) :
    (s.finishDecode d).inLen = s.inLen := by
  unfold State.finishDecode; split <;> simp_all
@[simp] theorem State.finishDecode_outLen (s : State) (d : Decoded) :
    (s.finishDecode d).outLen = if d.res = .ok then d.len.setWidth 32 else 0 := by
  unfold State.finishDecode; split <;> simp_all
@[simp] theorem State.finishDecode_auxLen (s : State) (d : Decoded) :
    (s.finishDecode d).auxLen = 0 := by
  unfold State.finishDecode; split <;> simp_all
@[simp] theorem State.finishDecode_decOpcode (s : State) (d : Decoded) :
    (s.finishDecode d).decOpcode = d.opc := by
  unfold State.finishDecode; split <;> simp_all
@[simp] theorem State.finishDecode_decMaskKey (s : State) (d : Decoded) :
    (s.finishDecode d).decMaskKey = if d.res = .ok then d.key.toWord else 0 := by
  unfold State.finishDecode; split <;> simp_all
@[simp] theorem State.finishDecode_decLenLo (s : State) (d : Decoded) :
    (s.finishDecode d).decLenLo = if d.res = .ok then d.len.extractLsb' 0 32 else 0 := by
  unfold State.finishDecode; split <;> simp_all
@[simp] theorem State.finishDecode_decLenHi (s : State) (d : Decoded) :
    (s.finishDecode d).decLenHi = if d.res = .ok then d.len.extractLsb' 32 32 else 0 := by
  unfold State.finishDecode; split <;> simp_all
@[simp] theorem State.finishDecode_inBuf (s : State) (d : Decoded) :
    (s.finishDecode d).inBuf = s.inBuf := by
  unfold State.finishDecode; split <;> simp_all
@[simp] theorem State.finishDecode_outBuf (s : State) (d : Decoded) :
    (s.finishDecode d).outBuf = if d.res = .ok then Memory.writeBytes s.outBuf 0 d.pay else s.outBuf := by
  unfold State.finishDecode; split <;> simp_all
@[simp] theorem State.finishDecode_epoch (s : State) (d : Decoded) :
    (s.finishDecode d).epoch = s.epoch := by
  unfold State.finishDecode; split <;> simp_all
@[simp] theorem State.finishDecode_program (s : State) (d : Decoded) :
    (s.finishDecode d).program = s.program := by
  unfold State.finishDecode; split <;> simp_all
@[simp] theorem State.finishDecode_readData (s : State) (d : Decoded) :
    (s.finishDecode d).readData = s.readData := by
  unfold State.finishDecode; split <;> simp_all

/-! ### closeOnResult -/

@[simp] theorem State.closeOnResult_cfg (s : State) : s.closeOnResult.cfg = s.cfg := by
  unfold State.closeOnResult; split <;> rfl
@[simp] theorem State.closeOnResult_status (s : State) : s.closeOnResult.status = s.status := by
  unfold State.closeOnResult; split <;> rfl
@[simp] theorem State.closeOnResult_session (s : State) : s.closeOnResult.session = if s.status.closesSession then .closed else s.session := by
  unfold State.closeOnResult; split <;> rfl
@[simp] theorem State.closeOnResult_inLen (s : State) : s.closeOnResult.inLen = s.inLen := by
  unfold State.closeOnResult; split <;> rfl
@[simp] theorem State.closeOnResult_outLen (s : State) : s.closeOnResult.outLen = s.outLen := by
  unfold State.closeOnResult; split <;> rfl
@[simp] theorem State.closeOnResult_auxLen (s : State) : s.closeOnResult.auxLen = s.auxLen := by
  unfold State.closeOnResult; split <;> rfl
@[simp] theorem State.closeOnResult_decOpcode (s : State) : s.closeOnResult.decOpcode = s.decOpcode := by
  unfold State.closeOnResult; split <;> rfl
@[simp] theorem State.closeOnResult_decMaskKey (s : State) : s.closeOnResult.decMaskKey = s.decMaskKey := by
  unfold State.closeOnResult; split <;> rfl
@[simp] theorem State.closeOnResult_decLenLo (s : State) : s.closeOnResult.decLenLo = s.decLenLo := by
  unfold State.closeOnResult; split <;> rfl
@[simp] theorem State.closeOnResult_decLenHi (s : State) : s.closeOnResult.decLenHi = s.decLenHi := by
  unfold State.closeOnResult; split <;> rfl
@[simp] theorem State.closeOnResult_inBuf (s : State) : s.closeOnResult.inBuf = s.inBuf := by
  unfold State.closeOnResult; split <;> rfl
@[simp] theorem State.closeOnResult_outBuf (s : State) : s.closeOnResult.outBuf = s.outBuf := by
  unfold State.closeOnResult; split <;> rfl
@[simp] theorem State.closeOnResult_epoch (s : State) : s.closeOnResult.epoch = s.epoch := by
  unfold State.closeOnResult; split <;> rfl
@[simp] theorem State.closeOnResult_program (s : State) : s.closeOnResult.program = s.program := by
  unfold State.closeOnResult; split <;> rfl
@[simp] theorem State.closeOnResult_readData (s : State) : s.closeOnResult.readData = s.readData := by
  unfold State.closeOnResult; split <;> rfl

/-! ### The reset state -/

@[simp] theorem State.resetOf_cfg (c : Config) : (State.resetOf c).cfg = c := rfl
@[simp] theorem State.resetOf_status (c : Config) : (State.resetOf c).status = .idle := rfl
@[simp] theorem State.resetOf_session (c : Config) : (State.resetOf c).session = .handshaking := rfl
@[simp] theorem State.resetOf_inLen (c : Config) : (State.resetOf c).inLen = 0 := rfl
@[simp] theorem State.resetOf_outLen (c : Config) : (State.resetOf c).outLen = 0 := rfl
@[simp] theorem State.resetOf_auxLen (c : Config) : (State.resetOf c).auxLen = 0 := rfl
@[simp] theorem State.resetOf_decOpcode (c : Config) : (State.resetOf c).decOpcode = 0 := rfl
@[simp] theorem State.resetOf_decMaskKey (c : Config) : (State.resetOf c).decMaskKey = 0 := rfl
@[simp] theorem State.resetOf_decLenLo (c : Config) : (State.resetOf c).decLenLo = 0 := rfl
@[simp] theorem State.resetOf_decLenHi (c : Config) : (State.resetOf c).decLenHi = 0 := rfl
@[simp] theorem State.resetOf_inBuf (c : Config) : (State.resetOf c).inBuf = [] := rfl
@[simp] theorem State.resetOf_outBuf (c : Config) : (State.resetOf c).outBuf = [] := rfl
@[simp] theorem State.resetOf_epoch (c : Config) : (State.resetOf c).epoch = 0 := rfl
@[simp] theorem State.resetOf_program (c : Config) : (State.resetOf c).program = [] := rfl
@[simp] theorem State.resetOf_readData (c : Config) : (State.resetOf c).readData = 0 := rfl

end Sys2Proof.Machine
end

