-- ==== Sys2Proof/Laws/Ops.lean ====
section
/-! SUPPORT. One lemma per shared operation, saying everything it can do when it answers a next state,
and the inversion lemma of `exec`: the shapes a next state can have. -/

namespace Sys2Proof.Machine

open Sys2Proof

theorem withRead_next_iff {α : Type} {r : Except Fault α} {k : α → StepResult} {t : State} :
    withRead r k = .next t ↔ ∃ a, r = .ok a ∧ k a = .next t := by
  cases r <;> simp [withRead]

theorem checkLength_next_iff {s t : State} {k : StepResult} :
    checkLength s k = .next t ↔
      (s.cfg.bufCap < s.inLen.toNat ∧ t = s.finishError .badLength) ∨
      (s.inLen.toNat ≤ s.cfg.bufCap ∧ k = .next t) := by
  unfold checkLength
  split
  · rename_i h
    constructor
    · intro h'; cases h'; exact .inl ⟨h, rfl⟩
    · rintro (⟨_, rfl⟩ | ⟨h', _⟩)
      · rfl
      · omega
  · rename_i h
    constructor
    · intro h'; exact .inr ⟨by omega, h'⟩
    · rintro (⟨h', _⟩ | ⟨_, h'⟩)
      · omega
      · exact h'

theorem withChunk_next_iff {s t : State} {k : StepResult} :
    withChunk s k = .next t ↔
      (s.cfg.bufCap < s.inLen.toNat ∧ t = s.finishError .badLength) ∨
      (s.inLen.toNat ≤ s.cfg.bufCap ∧ s.inLen.toNat < 6 ∧
        t = s.finishDecode (.signal .truncatedFrame 0)) ∨
      (s.inLen.toNat ≤ s.cfg.bufCap ∧ 6 ≤ s.inLen.toNat ∧ k = .next t) := by
  unfold withChunk
  rw [checkLength_next_iff]
  split
  · rename_i h
    constructor
    · rintro (h' | ⟨h1, h2⟩)
      · exact .inl h'
      · cases h2; exact .inr (.inl ⟨h1, h, rfl⟩)
    · rintro (h' | ⟨h1, _, rfl⟩ | ⟨_, h2, _⟩)
      · exact .inl h'
      · exact .inr ⟨h1, rfl⟩
      · omega
  · rename_i h
    constructor
    · rintro (h' | ⟨h1, h2⟩)
      · exact .inl h'
      · exact .inr (.inr ⟨h1, by omega, h2⟩)
    · rintro (h' | ⟨_, h2, _⟩ | ⟨h1, _, h3⟩)
      · exact .inl h'
      · omega
      · exact .inr ⟨h1, h3⟩

/-- The input read succeeds exactly on the input. -/
theorem readInput_ok_iff {s : State} {bs : List Byte} : s.readInput = .ok bs ↔ s.InputIs bs := by
  unfold State.readInput State.InputIs
  rw [readInSlice_ok_iff]
  constructor
  · rintro ⟨h1, h2⟩
    exact ⟨h1.symm, fun i hi => by simpa using h2 i (by omega)⟩
  · rintro ⟨h1, h2⟩
    exact ⟨h1.symm, fun i hi => by simpa using h2 i (by omega)⟩

theorem emitTextFrame_next_iff {s t : State} {l : Nat} :
    emitTextFrame s l = .next t ↔
      (125 < l ∧ t = s.finishError .payloadTooLong) ∨
      (l ≤ 125 ∧ ∃ payload, s.readInSlice 0 l = .ok payload ∧
        t = s.finishOutput (textFrame payload) 0) := by
  unfold emitTextFrame
  split
  · rename_i h
    constructor
    · intro h'; cases h'; exact .inl ⟨h, rfl⟩
    · rintro (⟨_, rfl⟩ | ⟨h', _⟩)
      · rfl
      · omega
  · rename_i h
    rw [withRead_next_iff]
    constructor
    · rintro ⟨p, hp, h'⟩; cases h'; exact .inr ⟨by omega, p, hp, rfl⟩
    · rintro (⟨h', _⟩ | ⟨_, p, hp, rfl⟩)
      · omega
      · exact ⟨p, hp, rfl⟩

theorem closeOnResult_next_iff {r : StepResult} {t : State} :
    closeOnResult r = .next t ↔ ∃ s, r = .next s ∧ t = s.closeOnResult := by
  cases r <;> simp [closeOnResult, eq_comm]

@[simp] theorem unmaskFrom_length (key : MaskKey) (bs : List Byte) :
    ∀ i, (unmaskFrom key i bs).length = bs.length := by
  induction bs with
  | nil => intro i; rfl
  | cons b bs ih => intro i; simp [unmaskFrom, ih]

@[simp] theorem unmask_length (key : MaskKey) (bs : List Byte) : (unmask key bs).length = bs.length :=
  unmaskFrom_length key bs 0

/-- Unmasking is bytewise (R171). -/
theorem unmaskFrom_getElem? (key : MaskKey) (bs : List Byte) : ∀ (i j : Nat),
    (unmaskFrom key i bs)[j]? = (bs[j]?).map fun b => b ^^^ key.byte (i + j) := by
  induction bs with
  | nil => intro i j; simp [unmaskFrom]
  | cons b bs ih =>
    intro i j
    cases j with
    | zero => simp [unmaskFrom]
    | succ j => simp [unmaskFrom, ih, Nat.add_assoc, Nat.add_comm 1]

theorem unmask_getElem? (key : MaskKey) (bs : List Byte) (j : Nat) :
    (unmask key bs)[j]? = (bs[j]?).map fun b => b ^^^ key.byte j := by
  simpa [unmask] using unmaskFrom_getElem? key bs 0 j

/-- What DecodeCore can return (R160, R173): OK with a payload inside the chunk and of length L, or a
result that names only an opcode, the one R160 returns with it. -/
def DecodedOk (s : State) (d : Decoded) : Prop :=
  (d.res = .ok ∧ d.opc = 1 ∧ d.pay.length = d.len.toNat ∧ d.len.toNat + 6 ≤ s.inLen.toNat ∧
    (s.cfg.lenMode = .literal → d.len.toNat ≤ 127)) ∨
  (d = Decoded.signal d.res d.opc ∧
    ((d.res = .truncatedFrame ∧ d.opc = if s.inLen.toNat < 6 then 0 else 1) ∨
     (d.res = .closeSignal ∧ d.opc = 8) ∨ (d.res = .ignored ∧ d.opc ≠ 1 ∧ d.opc ≠ 8) ∨
     (d.res = .unmaskedClientFrame ∧ d.opc = 1)))

theorem DecodedOk.short {s : State} (h : s.inLen.toNat < 6) : DecodedOk s (.signal .truncatedFrame 0) :=
  .inr ⟨rfl, .inl ⟨rfl, (if_pos h).symm⟩⟩

theorem DecodedOk.truncated {s : State} (h : 6 ≤ s.inLen.toNat) : DecodedOk s (.signal .truncatedFrame 1) :=
  .inr ⟨rfl, .inl ⟨rfl, (if_neg (by omega)).symm⟩⟩

theorem DecodedOk.closeSignal {s : State} : DecodedOk s (.signal .closeSignal 8) :=
  .inr ⟨rfl, .inr (.inl ⟨rfl, rfl⟩)⟩

theorem DecodedOk.ignored {s : State} {opc : BitVec 4} (h1 : opc ≠ 1) (h8 : opc ≠ 8) :
    DecodedOk s (.signal .ignored opc) := .inr ⟨rfl, .inr (.inr (.inl ⟨rfl, h1, h8⟩))⟩

theorem DecodedOk.unmasked {s : State} : DecodedOk s (.signal .unmaskedClientFrame 1) :=
  .inr ⟨rfl, .inr (.inr (.inr ⟨rfl, rfl⟩))⟩

theorem decodePayload_ok {s : State} {n : Nat} {f : LenForm} {len : BitVec 64} {d : Decoded}
    (h : decodePayload s n f len = .ok d) :
    d = Decoded.signal .truncatedFrame 1 ∧ n - (f.keyOffset + 4) < len.toNat ∨
    ∃ key masked, s.readKey f.keyOffset = .ok key ∧
      s.readInSlice (f.keyOffset + 4) len.toNat = .ok masked ∧ len.toNat ≤ n - (f.keyOffset + 4) ∧
      d = { res := .ok, opc := 1, len := len, key := key, pay := unmask key masked } := by
  unfold decodePayload at h
  cases hk : s.readKey f.keyOffset with
  | error e => simp [hk, bind, Except.bind] at h
  | ok key =>
    simp only [hk, bind, Except.bind] at h
    split at h
    · rename_i hlt
      cases h; exact .inl ⟨rfl, hlt⟩
    · rename_i hge
      cases hm : s.readInSlice (f.keyOffset + 4) len.toNat with
      | error e => simp [hm] at h
      | ok masked =>
        simp only [hm, pure, Except.pure, Except.ok.injEq] at h
        exact .inr ⟨key, masked, rfl, rfl, by omega, h.symm⟩

theorem lenForm_literal (l : BitVec 7) : lenForm .literal l = .short := rfl

theorem decodeText_ok {s : State} {d : Decoded} (h6 : 6 ≤ s.inLen.toNat)
    (h : decodeText s s.inLen.toNat = .ok d) : DecodedOk s d := by
  unfold decodeText at h
  cases h1 : s.readIn 1 with
  | error e => simp [h1, bind, Except.bind] at h
  | ok b1 =>
    simp only [h1, bind, Except.bind] at h
    split at h
    · cases h; exact .unmasked
    · split at h
      · cases h; exact .truncated h6
      · rename_i hn
        generalize hf : lenForm s.cfg.lenMode (len7Field b1) = f at h hn
        cases he : s.readInSlice 2 f.extBytes with
        | error e => simp [he] at h
        | ok ext =>
          simp only [he] at h
          rcases decodePayload_ok h with ⟨rfl, _⟩ | ⟨key, masked, _, hm, hle, rfl⟩
          · exact .truncated h6
          · refine .inl ⟨rfl, rfl, ?_, ?_, ?_⟩
            · simpa using ((readInSlice_ok_iff _ _ _ _).1 hm).1
            · have : f.keyOffset + 4 = f.headerBytes ∧ 6 ≤ f.headerBytes := by
                cases f <;> simp [LenForm.keyOffset, LenForm.headerBytes]
              simp only at hle ⊢
              omega
            · intro hl
              rw [hl, lenForm_literal] at hf
              subst hf
              simp only [LenForm.length, BitVec.toNat_setWidth]
              have := (len7Field b1).isLt
              omega

/-- The wire instruction DECODE runs is the one the decoder reads from byte 0 (R85). -/
theorem runFrame_eq_exec (b : Byte) (s : State) : runFrame b s = exec (decodeFrameByte b) s := by
  unfold runFrame decodeFrameByte
  generalize (opcodeNibble b).toNat = n
  iterate 15 (rcases n with _ | n; rfl)
  rfl

/-- A finished decode (R175, R176), with what DecodeCore can return. -/
def DecodeFinish (s t : State) : Prop :=
  (s.cfg.bufCap < s.inLen.toNat ∧ t = s.finishError .badLength) ∨
  (s.inLen.toNat ≤ s.cfg.bufCap ∧ ∃ d, DecodedOk s d ∧ t = s.finishDecode d)

theorem ignoreFrame_next {s t : State} {opc : BitVec 4} (h1 : opc ≠ 1) (h8 : opc ≠ 8)
    (h : ignoreFrame opc s = .next t) : DecodeFinish s t := by
  rcases withChunk_next_iff.1 h with h | ⟨hl, h6, rfl⟩ | ⟨hl, _, h'⟩
  · exact .inl h
  · exact .inr ⟨hl, _, .short h6, rfl⟩
  · cases h'; exact .inr ⟨hl, _, .ignored h1 h8, rfl⟩

theorem execClose_next {s t : State} {fin : Bool} {rsv : BitVec 3}
    (h : execClose fin rsv s = .next t) : DecodeFinish s t := by
  rcases withChunk_next_iff.1 h with h | ⟨hl, h6, rfl⟩ | ⟨hl, _, h'⟩
  · exact .inl h
  · exact .inr ⟨hl, _, .short h6, rfl⟩
  · cases h'; exact .inr ⟨hl, _, .closeSignal, rfl⟩

theorem execText_next {s t : State} {fin : Bool} {rsv : BitVec 3}
    (h : execText fin rsv s = .next t) : DecodeFinish s t := by
  rcases withChunk_next_iff.1 h with h | ⟨hl, h6, rfl⟩ | ⟨hl, h6, h'⟩
  · exact .inl h
  · exact .inr ⟨hl, _, .short h6, rfl⟩
  · obtain ⟨d, hd, h'⟩ := withRead_next_iff.1 h'
    cases h'; exact .inr ⟨hl, d, decodeText_ok h6 hd, rfl⟩

theorem runFrame_next {s t : State} {b : Byte} (h : runFrame b s = .next t) : DecodeFinish s t := by
  unfold runFrame at h
  split at h
  case h_2 => exact execText_next h
  case h_9 => exact execClose_next h
  all_goals exact ignoreFrame_next (by decide) (by decide) h

theorem decodeChunk_next {s t : State} (h : decodeChunk s = .next t) : DecodeFinish s t := by
  rcases withChunk_next_iff.1 h with h | ⟨hl, h6, rfl⟩ | ⟨_, _, h'⟩
  · exact .inl h
  · exact .inr ⟨hl, _, .short h6, rfl⟩
  · obtain ⟨b, _, h'⟩ := withRead_next_iff.1 h'
    exact runFrame_next h'

theorem execUpgrade_next {s t : State} {kp : Bool} (h : execUpgrade kp s = .next t) :
    (∃ r, (r = .badState ∨ r = .missingKey ∨ r = .badLength) ∧ t = s.finishError r) ∨
    (s.session = .handshaking ∧ kp = true ∧ s.inLen.toNat ≤ s.cfg.bufCap ∧ ∃ key, s.InputIs key ∧
      t = { s.finishOutput (upgradeHeader (acceptToken key) ++ textFrame s.cfg.greeting) 130 with
            session := .opened }) := by
  unfold execUpgrade at h
  split at h
  · cases h; exact .inl ⟨_, .inl rfl, rfl⟩
  · rename_i hs
    split at h
    · cases h; exact .inl ⟨_, .inr (.inl rfl), rfl⟩
    · rename_i hk
      rcases checkLength_next_iff.1 h with ⟨_, rfl⟩ | ⟨hl, h⟩
      · exact .inl ⟨_, .inr (.inr rfl), rfl⟩
      · obtain ⟨key, hr, h⟩ := withRead_next_iff.1 h
        cases h
        exact .inr ⟨by simpa using hs, by simpa using hk, hl, key, readInput_ok_iff.1 hr, rfl⟩

/-- What an instruction can do when it answers a next state: the inversion lemma of `exec`. -/
theorem exec_next_cases {i : Instr} {s t : State} (h : exec i s = .next t) :
    (i = .nop ∧ t = s) ∨
    (i = .disconnect ∧ t = { s with session := .closed, outLen := 0, auxLen := 0, status := .ok }) ∨
    (runsDecode i = false ∧ ∃ r, (r = .badState ∨ r = .missingKey ∨ r = .badLength ∨ r = .badCommand ∨
      r = .payloadTooLong) ∧ t = s.finishError r) ∨
    (i = .sign ∧ s.inLen.toNat ≤ s.cfg.bufCap ∧ ∃ key, s.InputIs key ∧
      t = s.finishOutput (acceptToken key) 0) ∨
    ((i = .encode ∨ ∃ l, i = .textOut l) ∧ ∃ payload, payload.length ≤ 125 ∧
      t = s.finishOutput (textFrame payload) 0) ∨
    (i = .upgrade true ∧ s.session = .handshaking ∧ s.inLen.toNat ≤ s.cfg.bufCap ∧ ∃ key, s.InputIs key ∧
      t = { s.finishOutput (upgradeHeader (acceptToken key) ++ textFrame s.cfg.greeting) 130 with
            session := .opened }) ∨
    (runsDecode i = true ∧ i ≠ .feed ∧ DecodeFinish s t) ∨
    (i = .feed ∧ ((s.session ≠ .opened ∧ t = s.finishError .badState) ∨
      (s.session = .opened ∧ ∃ t', DecodeFinish s t' ∧ t = t'.closeOnResult))) := by
  cases i with
  | nop => cases h; exact .inl ⟨rfl, rfl⟩
  | disconnect => cases h; exact .inr (.inl ⟨rfl, rfl⟩)
  | reservedCmd op lo kp hi =>
    cases h; exact .inr (.inr (.inl ⟨rfl, _, by simp, rfl⟩))
  | sign =>
    rcases checkLength_next_iff.1 h with ⟨_, rfl⟩ | ⟨hl, h⟩
    · exact .inr (.inr (.inl ⟨rfl, _, by simp, rfl⟩))
    · obtain ⟨key, hr, h⟩ := withRead_next_iff.1 h
      cases h
      exact .inr (.inr (.inr (.inl ⟨rfl, hl, key, readInput_ok_iff.1 hr, rfl⟩)))
  | encode =>
    rcases checkLength_next_iff.1 h with ⟨_, rfl⟩ | ⟨hl, h⟩
    · exact .inr (.inr (.inl ⟨rfl, _, by simp, rfl⟩))
    · rcases emitTextFrame_next_iff.1 h with ⟨_, rfl⟩ | ⟨hl', p, hp, rfl⟩
      · exact .inr (.inr (.inl ⟨rfl, _, by simp, rfl⟩))
      · have := ((readInSlice_ok_iff _ _ _ _).1 hp).1
        exact .inr (.inr (.inr (.inr (.inl ⟨.inl rfl, p, by omega, rfl⟩))))
  | textOut l =>
    rcases emitTextFrame_next_iff.1 h with ⟨_, rfl⟩ | ⟨hl', p, hp, rfl⟩
    · exact .inr (.inr (.inl ⟨rfl, _, by simp, rfl⟩))
    · have := ((readInSlice_ok_iff _ _ _ _).1 hp).1
      exact .inr (.inr (.inr (.inr (.inl ⟨.inr ⟨l, rfl⟩, p, by omega, rfl⟩))))
  | upgrade kp =>
    rcases execUpgrade_next h with ⟨r, hr, rfl⟩ | ⟨h1, rfl, h2⟩
    · exact .inr (.inr (.inl ⟨rfl, r, by rcases hr with h | h | h <;> simp [h], rfl⟩))
    · exact .inr (.inr (.inr (.inr (.inr (.inl ⟨rfl, h1, h2⟩)))))
  | feed =>
    refine .inr (.inr (.inr (.inr (.inr (.inr (.inr ⟨rfl, ?_⟩))))))
    change execFeed s = .next t at h
    unfold execFeed at h
    split at h
    · rename_i hs; cases h; exact .inl ⟨hs, rfl⟩
    · rename_i hs
      obtain ⟨t', h', rfl⟩ := closeOnResult_next_iff.1 h
      exact .inr ⟨by simpa using hs, t', decodeChunk_next h', rfl⟩
  | decode => exact .inr (.inr (.inr (.inr (.inr (.inr (.inl ⟨rfl, by simp, decodeChunk_next h⟩))))))
  | text fin rsv => exact .inr (.inr (.inr (.inr (.inr (.inr (.inl ⟨rfl, by simp, execText_next (fin := fin) (rsv := rsv) h⟩))))))
  | close fin rsv => exact .inr (.inr (.inr (.inr (.inr (.inr (.inl ⟨rfl, by simp, execClose_next (fin := fin) (rsv := rsv) h⟩))))))
  | ignored0 _ _ | ignored2 _ _ | ignored3 _ _ | ignored4 _ _ | ignored5 _ _ | ignored6 _ _
  | ignored7 _ _ | ignored9 _ _ | ignoredA _ _ | ignoredB _ _ | ignoredC _ _ | ignoredD _ _
  | ignoredE _ _ | ignoredF _ _ =>
    exact .inr (.inr (.inr (.inr (.inr (.inr (.inl ⟨rfl, by simp, ignoreFrame_next (by decide) (by decide) h⟩))))))

/-! ### When a shared operation goes through -/

theorem checkLength_fits {s : State} {k : StepResult} (h : s.inLen.toNat ≤ s.cfg.bufCap) :
    checkLength s k = k := if_neg (by omega)

theorem checkLength_long {s : State} {k : StepResult} (h : s.cfg.bufCap < s.inLen.toNat) :
    checkLength s k = .next (s.finishError .badLength) := if_pos h

theorem withChunk_fits {s : State} {k : StepResult} (h : s.inLen.toNat ≤ s.cfg.bufCap)
    (h6 : 6 ≤ s.inLen.toNat) : withChunk s k = k := by
  unfold withChunk
  rw [checkLength_fits h, if_neg (by omega)]

theorem withChunk_short {s : State} {k : StepResult} (h : s.inLen.toNat ≤ s.cfg.bufCap)
    (h6 : s.inLen.toNat < 6) : withChunk s k = .next (s.finishDecode (.signal .truncatedFrame 0)) := by
  unfold withChunk
  rw [checkLength_fits h, if_pos h6]

/-- DECODE of a whole chunk is the wire instruction of its byte 0 (R85, R160). -/
theorem decodeChunk_eq {s : State} {b : Byte} (h : s.inLen.toNat ≤ s.cfg.bufCap) (h6 : 6 ≤ s.inLen.toNat)
    (hb : Memory.read s.inBuf 0 = some b) : decodeChunk s = exec (decodeFrameByte b) s := by
  unfold decodeChunk
  rw [withChunk_fits h h6, (readIn_ok_iff s 0 b).2 hb, ← runFrame_eq_exec]
  rfl

/-- The two spellings of a failed command's state agree. -/
theorem finishError_eq_failed (s : State) (r : Result) : s.finishError r = s.failed r := rfl

theorem finishDecode_signal (s : State) (r : Result) (opc : BitVec 4) (h : r ≠ .ok) :
    s.finishDecode (.signal r opc) = s.decodeFailed r opc := by
  simp [State.finishDecode, Decoded.signal, h, State.decodeFailed]

/-- A result that does not close the session leaves the state as it is. -/
theorem closeOnResult_of_not_closes {s : State} (h : s.status.closesSession = false) :
    s.closeOnResult = s := by simp [State.closeOnResult, h]

theorem closeOnResult_of_closes {s : State} (h : s.status.closesSession = true) :
    s.closeOnResult = { s with session := .closed } := by simp [State.closeOnResult, h]

theorem execFeed_opened {s : State} (h : s.session = .opened) :
    execFeed s = closeOnResult (decodeChunk s) := if_neg (by simp [h])

theorem execFeed_not_opened {s : State} (h : s.session ≠ .opened) :
    execFeed s = .next (s.finishError .badState) := if_pos h

/-- A step that takes a CMD write runs the decoded instruction. -/
theorem hostAccess_cmd (w : Word) (s : State) (run : Word → State → StepResult) :
    hostAccess run (.write 0 4 w) s = run w s := rfl

end Sys2Proof.Machine
end

