-- ==== Sys2Proof/Laws/Bytes.lean ====
section
/-! SUPPORT. The lengths of what the commands write: the digest, the token, the response header and the
text frame; and the bytes of a decoded length. -/

namespace Sys2Proof.Machine

open Sys2Proof

@[simp] theorem be32_length (x : Word) : (be32 x).length = 4 := rfl

@[simp] theorem be64_length (n : Nat) : (be64 n).length = 8 := rfl

@[simp] theorem sha1_length (m : List Byte) : (sha1 m).length = 20 := by simp [sha1, ShaState.bytes]

theorem sha1Pad_length (m : List Byte) : (sha1Pad m).length = m.length + 1 + zeroPad m.length + 8 := by
  simp [sha1Pad]; omega

/-- Every started group of 3 bytes gives 4 characters (R106). -/
theorem base64_length : ∀ d : List Byte, (base64 d).length = 4 * ((d.length + 2) / 3)
  | x :: y :: z :: rest => by simp [base64, base64_length rest]; omega
  | [x, y] => by simp [base64]
  | [x] => by simp [base64]
  | [] => by simp [base64]

@[simp] theorem acceptToken_length (key : List Byte) : (acceptToken key).length = 28 := by
  simp [acceptToken, base64_length]

theorem upgradeHeader_length {t : List Byte} (h : t.length = 28) : (upgradeHeader t).length = 130 := by
  simp [upgradeHeader, statusLine, crlf, upgradeLine, connectionLine, acceptName, h]

@[simp] theorem textFrame_length (p : List Byte) : (textFrame p).length = 2 + p.length := by
  simp only [textFrame, List.length_cons]; omega

/-- The two halves of a 64-bit length make it up (R31). -/
theorem len_halves (d : BitVec 64) : d.extractLsb' 32 32 ++ d.extractLsb' 0 32 = d := by
  apply BitVec.eq_of_getLsbD_eq
  intro i hi
  rw [BitVec.getLsbD_append]
  simp only [BitVec.getLsbD_extractLsb']
  split
  · simp_all
  · rename_i h
    rw [decide_eq_true (by omega : i - 32 < 32), Bool.true_and]
    congr 1; omega

/-- A length below 2^32 has a zero high half. -/
theorem len_high_zero {d : BitVec 64} (h : d.toNat < 2 ^ 32) : d.extractLsb' 32 32 = 0 := by
  apply BitVec.eq_of_toNat_eq
  simp only [BitVec.extractLsb'_toNat, Nat.shiftRight_eq_div_pow, BitVec.ofNat_eq_ofNat, BitVec.toNat_ofNat]
  omega

theorem beNat_pair (a b : Byte) : beNat [a, b] = a.toNat * 256 + b.toNat := by simp [beNat]

end Sys2Proof.Machine
end

