-- ==== Sys2Proof/Laws/Decoder.lean ====
section
/-! SUPPORT. Reading a written input, the Ignored class, and when the decoder answers. -/

namespace Sys2Proof.Machine

open Sys2Proof

/-- The bytes of a known input. -/
theorem readIn_of_input {s : State} {bs : List Byte} (h : s.InputIs bs) {a : Nat} {b : Byte}
    (hb : bs[a]? = some b) : s.readIn a = .ok b := by
  have ha : a < bs.length := by
    by_contra hh
    rw [List.getElem?_eq_none (by omega)] at hb
    cases hb
  rw [readIn_ok_iff, h.2 a ha, hb]

/-- The slices of a known input. -/
theorem readInSlice_of_input {s : State} {bs : List Byte} (h : s.InputIs bs) {a n : Nat}
    (hle : a + n ≤ bs.length) : s.readInSlice a n = .ok ((bs.drop a).take n) := by
  rw [readInSlice_ok_iff]
  refine ⟨by simp; omega, fun i hi => ?_⟩
  rw [h.2 _ (by omega)]
  simp [hi]

/-- The input is written exactly if it is some byte sequence (R274). -/
theorem inputWritten_iff {s : State} : s.inputWritten = true ↔ ∃ bs, s.InputIs bs := by
  unfold State.inputWritten
  simp only [List.all_eq_true, List.mem_range]
  constructor
  · intro h
    refine ⟨(List.range s.inLen.toNat).map fun i => (Memory.read s.inBuf i).getD 0, by simp, fun i hi => ?_⟩
    simp only [List.length_map, List.length_range] at hi
    have := h i hi
    cases hr : Memory.read s.inBuf i with
    | none => simp [hr] at this
    | some b => simp [hi, hr]
  · rintro ⟨bs, hl, hb⟩ i hi
    rw [hb i (by omega)]
    simp; omega

/-- Every opcode but Text and Close is of the Ignored class (R85, R164). -/
theorem runFrame_ignored {b : Byte} {s : State} (h1 : b.toNat % 16 ≠ 1) (h8 : b.toNat % 16 ≠ 8) :
    runFrame b s = ignoreFrame (opcodeNibble b) s := by
  have hn := opcodeNibble_toNat b
  have hlt := (opcodeNibble b).isLt
  have key : ∀ o : BitVec 4, (opcodeNibble b).toNat = o.toNat → ignoreFrame o s = ignoreFrame (opcodeNibble b) s :=
    fun o ho => by rw [BitVec.eq_of_toNat_eq ho]
  unfold runFrame
  split
  case h_2 h => omega
  case h_9 h => omega
  case h_16 =>
    refine key 0xF ?_
    simp only [imp_false] at *
    simp only [BitVec.ofNat_eq_ofNat, BitVec.toNat_ofNat]
    omega
  all_goals rename_i h; exact key _ h

theorem opcodeNibble_ne {b : Byte} {n : Nat} (h : b.toNat % 16 ≠ n % 16) : opcodeNibble b ≠ BitVec.ofNat 4 n := by
  intro he
  apply h
  rw [← opcodeNibble_toNat, he, BitVec.toNat_ofNat]

theorem LenForm.keyOffset_add (f : LenForm) : f.keyOffset + 4 = f.headerBytes := by
  cases f <;> rfl

theorem LenForm.extBytes_add (f : LenForm) : 2 + f.extBytes = f.keyOffset := by
  cases f <;> rfl

/-- A Text frame of a written chunk decodes without a fault (R173). -/
theorem decodeText_total {s : State} {bs : List Byte} (h : s.InputIs bs) (h6 : 6 ≤ s.inLen.toNat) :
    ∃ d, decodeText s s.inLen.toNat = .ok d := by
  have hl := h.1
  have rd : ∀ a, a < s.inLen.toNat → ∃ b, s.readIn a = .ok b := fun a ha =>
    ⟨bs[a], readIn_of_input h (by simp)⟩
  obtain ⟨b1, h1⟩ := rd 1 (by omega)
  unfold decodeText
  simp only [h1, bind, Except.bind]
  split
  · exact ⟨_, rfl⟩
  · generalize lenForm s.cfg.lenMode (len7Field b1) = f
    split
    · exact ⟨_, rfl⟩
    · rename_i hn
      have e1 := f.keyOffset_add
      have e2 := f.extBytes_add
      rw [readInSlice_of_input h (by omega)]
      simp only
      unfold decodePayload
      obtain ⟨k0, hk0⟩ := rd f.keyOffset (by omega)
      obtain ⟨k1, hk1⟩ := rd (f.keyOffset + 1) (by omega)
      obtain ⟨k2, hk2⟩ := rd (f.keyOffset + 2) (by omega)
      obtain ⟨k3, hk3⟩ := rd (f.keyOffset + 3) (by omega)
      simp only [State.readKey, hk0, hk1, hk2, hk3, bind, Except.bind, pure, Except.pure]
      split
      · exact ⟨_, rfl⟩
      · rw [readInSlice_of_input h (by omega)]
        exact ⟨_, rfl⟩

/-- The decode of a written chunk answers a next state: DecodeCore returned (R173). -/
theorem decodeChunk_total {s : State} (h : s.inLen.toNat ≤ s.cfg.bufCap) (hw : s.inputWritten = true) :
    ∃ d, DecodedOk s d ∧ decodeChunk s = .next (s.finishDecode d) := by
  obtain ⟨bs, hi⟩ := inputWritten_iff.1 hw
  by_cases h6 : s.inLen.toNat < 6
  · exact ⟨_, .short h6, withChunk_short h h6⟩
  · have hl := hi.1
    have hb : Memory.read s.inBuf 0 = some bs[0] := by rw [hi.2 0 (by omega)]; simp
    rw [decodeChunk_eq h (by omega) hb, ← runFrame_eq_exec]
    generalize bs[0] = b
    by_cases h1 : b.toNat % 16 = 1
    · rw [runFrame_eq_exec, decodeFrameByte_text h1]
      obtain ⟨d, hd⟩ := decodeText_total hi (by omega)
      refine ⟨d, decodeText_ok (by omega) hd, ?_⟩
      refine (withChunk_fits h (by omega)).trans ?_
      rw [hd]; rfl
    · by_cases h8 : b.toNat % 16 = 8
      · rw [runFrame_eq_exec, decodeFrameByte_close h8]
        exact ⟨_, .closeSignal, withChunk_fits h (by omega)⟩
      · rw [runFrame_ignored h1 h8]
        exact ⟨_, .ignored (opcodeNibble_ne h1) (opcodeNibble_ne h8), withChunk_fits h (by omega)⟩

end Sys2Proof.Machine
end

