-- ==== Sys2Proof/Laws/Frames.lean ====
section
/-! SUPPORT. A Text frame laid out in a written chunk: its length forms, its big-endian length, the mask
key and the payload. -/

namespace Sys2Proof.Machine

open Sys2Proof

/-! ### Big-endian numbers (R54, R87) -/

theorem foldl_bigEndian (bs : List Byte) : ∀ n : Nat,
    bs.foldl (fun acc b => acc * 256 + b.toNat) n = n * 256 ^ bs.length + beNat bs := by
  unfold beNat
  induction bs with
  | nil => intro n; simp
  | cons b bs ih =>
    intro n
    rw [List.foldl_cons, ih, List.foldl_cons, ih (0 * 256 + b.toNat), List.length_cons, pow_succ]
    ring

theorem beNat_cons (b : Byte) (bs : List Byte) :
    beNat (b :: bs) = b.toNat * 256 ^ bs.length + beNat bs := by
  rw [beNat, List.foldl_cons, foldl_bigEndian, Nat.zero_mul, Nat.zero_add]

/-- Byte `j` of `n` counts `256 ^ (n - 1 - j)`. -/
theorem beNat_eq_sum (bs : List Byte) :
    beNat bs = ((List.range bs.length).map fun j => (bs.getD j 0).toNat * 2 ^ (8 * (bs.length - 1 - j))).sum := by
  induction bs with
  | nil => rfl
  | cons b bs ih =>
    rw [beNat_cons, List.length_cons, List.range_succ_eq_map, List.map_cons, List.sum_cons, List.map_map, ih]
    congr 1
    · rw [List.getD_cons_zero, Nat.add_sub_cancel, Nat.sub_zero, Nat.pow_mul]
    · congr 1
      apply List.map_congr_left
      intro j _
      simp only [Function.comp, List.getD_cons_succ]
      congr 3; omega

theorem beNat_lt : ∀ bs : List Byte, beNat bs < 256 ^ bs.length := by
  intro bs
  induction bs with
  | nil => simp [beNat]
  | cons b bs ih =>
    have hb := b.isLt
    rw [beNat_cons, List.length_cons, pow_succ]
    nlinarith

/-! ### The length forms (R83, R84) -/

theorem lenForm_short {mode : LenMode} {b1 : Byte} (h : mode = .literal ∨ b1.toNat % 128 ≤ 125) :
    lenForm mode (len7Field b1) = .short := by
  rcases h with rfl | h
  · rfl
  · cases mode
    · rfl
    · simp [lenForm, len7Field_toNat, h]

theorem lenForm_ext16 {b1 : Byte} (h : b1.toNat % 128 = 126) : lenForm .rfc (len7Field b1) = .ext16 := by
  simp [lenForm, len7Field_toNat, h]

theorem lenForm_ext64 {b1 : Byte} (h : b1.toNat % 128 = 127) : lenForm .rfc (len7Field b1) = .ext64 := by
  simp [lenForm, len7Field_toNat, h]

/-- The header of the form that LEN_MODE and LEN7 select ends at the payload offset. -/
theorem headerBytes_lenForm (mode : LenMode) (b1 : Byte) :
    (lenForm mode (len7Field b1)).headerBytes = payloadOffset mode b1 := by
  unfold payloadOffset
  split
  · rename_i h; rw [lenForm_short h]; rfl
  · rename_i h
    have hm : mode = .rfc := by cases mode <;> simp at h ⊢
    subst hm
    split
    · rename_i h'; rw [lenForm_ext16 h']; rfl
    · rename_i h'; rw [lenForm_ext64 (by simp at h; omega)]; rfl

/-- The length of the form that LEN_MODE and LEN7 select is the one the header bytes give. -/
theorem length_lenForm {mode : LenMode} {b1 : Byte} {ext : List Byte}
    (h : ext.length = (lenForm mode (len7Field b1)).extBytes) :
    ((lenForm mode (len7Field b1)).length (len7Field b1) ext).toNat = textLength b1 ext := by
  have hlt := beNat_lt ext
  rw [textLength, ← beNat_eq_sum]
  generalize lenForm mode (len7Field b1) = f at h ⊢
  cases f <;> simp only [LenForm.extBytes] at h <;> simp only [LenForm.length, h] at hlt ⊢
  · rw [if_pos (List.length_eq_zero_iff.1 h), BitVec.toNat_setWidth, len7Field_toNat]
    exact Nat.mod_eq_of_lt (by omega)
  all_goals
    rw [if_neg (by rintro rfl; simp at h), BitVec.toNat_ofNat]
    exact Nat.mod_eq_of_lt (by norm_num at hlt ⊢; omega)

/-! ### Masking (R171, R177) -/

/-- Key byte `i mod 4` as DEC_MASKKEY packs it (R30). -/
theorem MaskKey.byte_eq_extract (key : MaskKey) (i : Nat) :
    key.byte i = key.toWord.extractLsb' (8 * (3 - i % 4)) 8 := by
  have : i % 4 < 4 := Nat.mod_lt _ (by decide)
  unfold MaskKey.byte MaskKey.toWord
  generalize i % 4 = j at this
  rcases key with ⟨a, b, c, d⟩
  have hw : ∀ i, (a ++ b ++ c ++ d : Word).getLsbD i =
      if i < 8 then d.getLsbD i else if i < 16 then c.getLsbD (i - 8)
      else if i < 24 then b.getLsbD (i - 16) else a.getLsbD (i - 24) := by
    intro i
    rw [BitVec.getLsbD_append, BitVec.getLsbD_append, BitVec.getLsbD_append]
    by_cases h1 : i < 8
    · simp [h1]
    · by_cases h2 : i < 16
      · simp [h1, h2, show i - 8 < 8 by omega]
      · have e1 : ¬ i - 8 < 8 := by omega
        have e2 : i - 8 - 8 = i - 16 := by omega
        have e3 : i - 16 - 8 = i - 24 := by omega
        rw [if_neg h1, if_neg h1, if_neg h2, if_neg e1, e2, e3]
        by_cases h3 : i < 24
        · rw [if_pos h3, if_pos (by omega)]
        · rw [if_neg h3, if_neg (by omega)]
  match j, this with
  | 0, _ | 1, _ | 2, _ | 3, _ =>
    apply BitVec.eq_of_getLsbD_eq
    intro i hi
    rw [BitVec.getLsbD_extractLsb', hw]
    simp only [hi, decide_true, Bool.true_and]
    split_ifs <;> first | omega | (congr 1; omega)

/-- The rolling XOR is `mask` of R177. -/
theorem unmask_eq_maskBytes (k0 k1 k2 k3 : Byte) (bs : List Byte) :
    unmask ⟨k0, k1, k2, k3⟩ bs = maskBytes k0 k1 k2 k3 bs := by
  apply List.ext_getElem?
  intro i
  rw [unmask_getElem?]
  simp only [maskBytes, List.getElem?_mapIdx]
  congr 1
  funext b
  congr 1
  have : i % 4 < 4 := Nat.mod_lt _ (by decide)
  unfold MaskKey.byte
  generalize i % 4 = j at this
  match j, this with
  | 0, _ => rfl
  | 1, _ => rfl
  | 2, _ => rfl
  | 3, _ => rfl

theorem maskBytes_length (k0 k1 k2 k3 : Byte) (bs : List Byte) :
    (maskBytes k0 k1 k2 k3 bs).length = bs.length := by simp [maskBytes]

/-- Masking is its own inverse (R177). -/
theorem maskBytes_maskBytes (k0 k1 k2 k3 : Byte) (bs : List Byte) :
    maskBytes k0 k1 k2 k3 (maskBytes k0 k1 k2 k3 bs) = bs := by
  apply List.ext_getElem?
  intro i
  simp only [maskBytes, List.getElem?_mapIdx]
  cases bs[i]? with
  | none => rfl
  | some b => simp

/-! ### A whole frame -/

/-- A Text frame laid out in a written chunk: the header bytes, the extended length, the key, and what
follows it (R84, R169 to R172). -/
theorem decodeText_wire {s : State} {b0 b1 k0 k1 k2 k3 : Byte} {ext body : List Byte} {f : LenForm}
    (hi : s.InputIs ([b0, b1] ++ ext ++ [k0, k1, k2, k3] ++ body))
    (hm : s.cfg.checkMask = true → 128 ≤ b1.toNat)
    (hf : lenForm s.cfg.lenMode (len7Field b1) = f) (he : ext.length = f.extBytes) :
    decodeText s s.inLen.toNat = .ok
      (if body.length < (f.length (len7Field b1) ext).toNat then Decoded.signal .truncatedFrame 1
       else
        { res := .ok, opc := 1, len := f.length (len7Field b1) ext, key := ⟨k0, k1, k2, k3⟩
          pay := unmask ⟨k0, k1, k2, k3⟩ (body.take (f.length (len7Field b1) ext).toNat) }) := by
  have hl : s.inLen.toNat = 2 + ext.length + 4 + body.length := by rw [hi.1]; simp; omega
  have e1 := f.keyOffset_add
  have e2 := f.extBytes_add
  have r1 : s.readIn 1 = .ok b1 := readIn_of_input hi (by simp)
  have rk : ∀ j b, [k0, k1, k2, k3][j]? = some b → s.readIn (f.keyOffset + j) = .ok b := fun j b hb => by
    refine readIn_of_input hi ?_
    have hj : j < 4 := by
      by_contra hh
      rw [List.getElem?_eq_none (by simp; omega)] at hb
      cases hb
    rw [List.getElem?_append_left (by simp; omega), List.getElem?_append_right (by simp; omega), ← hb]
    congr 1
    simp; omega
  have rext : s.readInSlice 2 f.extBytes = .ok ext := by
    rw [readInSlice_of_input hi (by simp; omega), ← he]
    simp
  have rbody : ∀ n, n ≤ body.length → s.readInSlice (f.keyOffset + 4) n = .ok (body.take n) := fun n hn => by
    rw [readInSlice_of_input hi (by simp; omega)]
    congr 2
    rw [List.drop_append_of_le_length (by simp; omega), List.drop_eq_nil_of_le (by simp; omega)]
    rfl
  unfold decodeText
  simp only [r1, bind, Except.bind]
  rw [if_neg (by rw [maskBit_eq]; simpa using hm), hf, if_neg (by omega), rext]
  simp only
  unfold decodePayload
  have r0 : s.readIn f.keyOffset = .ok k0 := rk 0 k0 rfl
  simp only [State.readKey, r0, rk 1 k1 rfl, rk 2 k2 rfl, rk 3 k3 rfl, bind, Except.bind, pure, Except.pure]
  have hp : s.inLen.toNat - (f.keyOffset + 4) = body.length := by omega
  rw [hp]
  by_cases hb : body.length < (f.length (len7Field b1) ext).toNat
  · rw [if_pos hb, if_pos hb]
  · rw [if_neg hb, if_neg hb, rbody _ (by omega)]

/-- DECODE and TEXT of a laid-out Text frame. -/
theorem decodeFrame_wire {s : State} {b0 b1 k0 k1 k2 k3 : Byte} {ext body : List Byte} {f : LenForm}
    (hi : s.InputIs ([b0, b1] ++ ext ++ [k0, k1, k2, k3] ++ body)) (hfit : s.inLen.toNat ≤ s.cfg.bufCap)
    (hop : b0.toNat % 16 = 1) (hm : s.cfg.checkMask = true → 128 ≤ b1.toNat)
    (hf : lenForm s.cfg.lenMode (len7Field b1) = f) (he : ext.length = f.extBytes) :
    ∃ d, d = (if body.length < (f.length (len7Field b1) ext).toNat then Decoded.signal .truncatedFrame 1
       else
        { res := .ok, opc := 1, len := f.length (len7Field b1) ext, key := ⟨k0, k1, k2, k3⟩
          pay := unmask ⟨k0, k1, k2, k3⟩ (body.take (f.length (len7Field b1) ext).toNat) }) ∧
      decodeChunk s = .next (s.finishDecode d) ∧ ∀ fin rsv, execText fin rsv s = .next (s.finishDecode d) := by
  have h6 : 6 ≤ s.inLen.toNat := by rw [hi.1]; simp; omega
  have hd := decodeText_wire hi hm hf he
  have ht : ∀ fin rsv, execText fin rsv s = .next (s.finishDecode _) := fun fin rsv => by
    refine (withChunk_fits hfit h6).trans ?_
    rw [hd]; rfl
  have hb : Memory.read s.inBuf 0 = some b0 := by rw [hi.2 0 (by simp)]; simp
  refine ⟨_, rfl, ?_, ht⟩
  rw [decodeChunk_eq hfit h6 hb, decodeFrameByte_text hop]
  exact ht (finBit b0) (rsvBits b0)

end Sys2Proof.Machine
end

