-- ==== Sys2Proof/Laws/HostPort.lean ====
section
/-! SUPPORT. The address map in terms of the address's number, and what one step of the port does. -/

namespace Sys2Proof.Machine

open Sys2Proof

theorem regionOf_register_iff {addr : Word} {off : Nat} :
    regionOf addr = .register off ↔ addr.toNat = off ∧ off < 0x1000 := by
  unfold regionOf
  simp only
  split_ifs <;> simp only [Region.register.injEq, false_iff] <;> omega

theorem regionOf_inWindow_iff {addr : Word} {i : Nat} :
    regionOf addr = .inWindow i ↔ addr.toNat = 0x10000 + i ∧ i < 0x10000 := by
  unfold regionOf
  simp only
  split_ifs <;> simp only [Region.inWindow.injEq, false_iff] <;> omega

theorem regionOf_outWindow_iff {addr : Word} {i : Nat} :
    regionOf addr = .outWindow i ↔ addr.toNat = 0x20000 + i ∧ i < 0x10000 := by
  unfold regionOf
  simp only
  split_ifs <;> simp only [Region.outWindow.injEq, false_iff] <;> omega

theorem regionOf_outside_iff {addr : Word} :
    regionOf addr = .outside ↔
      (0x1000 ≤ addr.toNat ∧ addr.toNat < 0x10000) ∨ 0x30000 ≤ addr.toNat := by
  unfold regionOf
  simp only
  split_ifs <;> simp only [false_iff, true_iff] <;> omega

theorem regionOf_inAddr {i : Nat} (h : i < 0x10000) : regionOf (inAddr i) = .inWindow i := by
  rw [regionOf_inWindow_iff]
  refine ⟨?_, h⟩
  simp only [inAddr, BitVec.toNat_ofNat]
  omega

theorem regionOf_outAddr {i : Nat} (h : i < 0x10000) : regionOf (outAddr i) = .outWindow i := by
  rw [regionOf_outWindow_iff]
  refine ⟨?_, h⟩
  simp only [outAddr, BitVec.toNat_ofNat]
  omega

/-- Each register is where R22 puts it. -/
theorem regAt_offset (r : Reg) : regAt r.offset = some r := by cases r <;> rfl

/-- The parameter constraints as inequalities (R8, R11). -/
theorem Config.wf_bounds {c : Config} (h : c.wf = true) :
    c.greeting.length ≤ 125 ∧ 132 + c.greeting.length ≤ c.bufCap ∧ 127 ≤ c.bufCap ∧ c.bufCap ≤ 65536 := by
  simpa [Config.wf, and_assoc] using h

/-- A step takes the host's next access (R56, R58). -/
theorem step_cons {s : State} {a : HostAccess} {rest : List HostAccess} (h : s.program = a :: rest) :
    step s = hostAccess runCommand a { s with program := rest } := by
  unfold step; rw [h]

theorem step_nil {s : State} (h : s.program = []) : step s = .next s := by
  unfold step; rw [h]

/-- What one step can do when it answers a next state: nothing (no access pending), reset, return read
data, store IN_LEN, store one input byte, ignore a write, or run a command. -/
theorem step_next_cases {s t : State} (h : step s = .next t) :
    (s.program = [] ∧ t = s) ∨
    ∃ a rest, s.program = a :: rest ∧
      ((a = .reset ∧ t = State.applyReset { s with program := rest }) ∨
       (∃ addr n, a = .read addr n ∧ t = { s with program := rest, readData := s.hostRead addr }) ∨
       (∃ v, a = .write 0xC 4 v ∧ t = { s with program := rest, inLen := v }) ∨
       (∃ i v, i < s.cfg.bufCap ∧ a = .write (inAddr i) 1 v ∧ i < 0x10000 ∧
          t = { s with program := rest, inBuf := Memory.write s.inBuf i (v.setWidth 8) }) ∨
       (∃ addr n v, a = .write addr n v ∧ addr ≠ 0 ∧ t = { s with program := rest }) ∨
       (∃ w, a = .write 0 4 w ∧ exec (decodeCommandWord w) { s with program := rest } = .next t)) := by
  cases hp : s.program with
  | nil => rw [step_nil hp] at h; cases h; exact .inl ⟨rfl, rfl⟩
  | cons a rest =>
    refine .inr ⟨a, rest, rfl, ?_⟩
    rw [step_cons hp] at h
    cases a with
    | reset => cases h; exact .inl ⟨rfl, rfl⟩
    | read addr n =>
      refine .inr (.inl ⟨addr, n, rfl, ?_⟩)
      simp only [hostAccess] at h
      split at h
      · cases h; rfl
      · cases h
    | write addr n v =>
      simp only [hostAccess] at h
      split at h
      case isFalse => cases h
      rename_i ha
      simp only [hostWrite] at h
      have hne : addr ≠ 0 → ∀ {t : State}, (Host.Outcome.next { s with program := rest } : StepResult) = Host.Outcome.next t →
          ∃ addr' n' v', HostAccess.write addr n v = .write addr' n' v' ∧ addr' ≠ 0 ∧
            t = { s with program := rest } := by
        intro h0 t ht; cases ht; exact ⟨addr, n, v, rfl, h0, rfl⟩
      have h4 : ∀ off, regionOf addr = .register off → n = 4 := by
        intro off ho
        simp only [accessAllowed, ho, Bool.and_eq_true, beq_iff_eq] at ha
        exact ha.1
      split at h
      · rename_i off ho
        have hn := h4 off ho
        obtain ⟨hoff, _⟩ := regionOf_register_iff.1 ho
        split at h
        case h_1 hr =>
          have h0 : off = 0 := by unfold regAt at hr; split at hr <;> first | rfl | cases hr
          have : addr = 0 := BitVec.eq_of_toNat_eq (by rw [hoff, h0]; rfl)
          subst this hn
          exact .inr (.inr (.inr (.inr (.inr ⟨v, rfl, h⟩))))
        case h_2 hr =>
          have h0 : off = 12 := by unfold regAt at hr; split at hr <;> first | rfl | cases hr
          have : addr = 0xC := BitVec.eq_of_toNat_eq (by rw [hoff, h0]; rfl)
          subst this hn
          cases h
          exact .inr (.inr (.inl ⟨v, rfl, rfl⟩))
        all_goals
          rename_i hr
          refine .inr (.inr (.inr (.inr (.inl (hne ?_ h)))))
          rintro rfl
          have : off = 0 := hoff.symm
          subst this
          cases hr
      · rename_i i hi
        obtain ⟨hi1, hi2⟩ := regionOf_inWindow_iff.1 hi
        have h1 : n = 1 := by simpa only [accessAllowed, hi, beq_iff_eq] using ha
        split at h
        · rename_i hlt
          cases h
          have : addr = inAddr i := BitVec.eq_of_toNat_eq (by rw [hi1]; simp only [inAddr, BitVec.toNat_ofNat]; omega)
          subst this h1
          exact .inr (.inr (.inr (.inl ⟨i, v, hlt, rfl, hi2, rfl⟩)))
        · refine .inr (.inr (.inr (.inr (.inl (hne ?_ h)))))
          rintro rfl; simp only [BitVec.ofNat_eq_ofNat, BitVec.toNat_ofNat] at hi1; omega
      · rename_i i hi
        obtain ⟨hi1, _⟩ := regionOf_outWindow_iff.1 hi
        refine .inr (.inr (.inr (.inr (.inl (hne ?_ h)))))
        rintro rfl; simp only [BitVec.ofNat_eq_ofNat, BitVec.toNat_ofNat] at hi1; omega
      · rename_i hi
        have := regionOf_outside_iff.1 hi
        refine .inr (.inr (.inr (.inr (.inl (hne ?_ h)))))
        rintro rfl; simp only [BitVec.ofNat_eq_ofNat, BitVec.toNat_ofNat] at this; omega

end Sys2Proof.Machine
end

