-- ==== Sys2Proof/Laws/Input.lean ====
section
/-! SUPPORT. What a decode depends on: replacing input bytes that it does not read changes nothing but
those bytes. -/

namespace Sys2Proof.Machine

open Sys2Proof

/-- Two answers that differ in IN_BUF only: the second has `m` there. -/
def SameButInput (m : Memory) (r r' : StepResult) : Prop :=
  (∀ t, r = .next t → r' = .next { t with inBuf := m }) ∧ (∀ f, r = .fault f → r' = .fault f)

theorem SameButInput.next {m : Memory} {t : State} : SameButInput m (.next t) (.next { t with inBuf := m }) :=
  ⟨fun _ h => by cases h; rfl, nofun⟩

theorem finishError_inBuf_update (s : State) (m : Memory) (r : Result) :
    ({ s with inBuf := m } : State).finishError r = { s.finishError r with inBuf := m } := rfl

theorem finishOutput_inBuf_update (s : State) (m : Memory) (bs : List Byte) (aux : Word) :
    ({ s with inBuf := m } : State).finishOutput bs aux = { s.finishOutput bs aux with inBuf := m } := rfl

theorem SameButInput.finishOutput (s : State) (m : Memory) (bs : List Byte) (aux : Word) :
    SameButInput m (.next (s.finishOutput bs aux)) (.next (({ s with inBuf := m } : State).finishOutput bs aux)) :=
  .next

theorem finishDecode_inBuf_update (s : State) (m : Memory) (d : Decoded) :
    ({ s with inBuf := m } : State).finishDecode d = { s.finishDecode d with inBuf := m } := by
  unfold State.finishDecode; split <;> rfl

theorem SameButInput.withRead {α : Type} {m : Memory} {r r' : Except Fault α} {k k' : α → StepResult}
    (h : r' = r) (hk : ∀ a, SameButInput m (k a) (k' a)) :
    SameButInput m (Machine.withRead r k) (Machine.withRead r' k') := by
  subst h
  cases r' with
  | ok a => exact hk a
  | error e => exact ⟨nofun, fun _ h => by cases h; rfl⟩

theorem SameButInput.checkLength {s : State} {m : Memory} {k k' : StepResult}
    (h : s.inLen.toNat ≤ s.cfg.bufCap → SameButInput m k k') :
    SameButInput m (Machine.checkLength s k) (Machine.checkLength { s with inBuf := m } k') := by
  unfold Machine.checkLength
  by_cases hl : s.cfg.bufCap < s.inLen.toNat
  · rw [if_pos hl, if_pos hl]; exact .next
  · rw [if_neg hl, if_neg hl]; exact h (by omega)

theorem SameButInput.withChunk {s : State} {m : Memory} {k k' : StepResult}
    (h : s.inLen.toNat ≤ s.cfg.bufCap → 6 ≤ s.inLen.toNat → SameButInput m k k') :
    SameButInput m (Machine.withChunk s k) (Machine.withChunk { s with inBuf := m } k') := by
  refine SameButInput.checkLength fun hl => ?_
  by_cases h6 : s.inLen.toNat < 6
  · rw [if_pos h6, if_pos h6, finishDecode_inBuf_update]; exact .next
  · rw [if_neg h6, if_neg h6]; exact h hl (by omega)

theorem SameButInput.closeOnResult {m : Memory} {r r' : StepResult} (h : SameButInput m r r') :
    SameButInput m (Machine.closeOnResult r) (Machine.closeOnResult r') := by
  cases r with
  | next t =>
    rw [h.1 t rfl]
    show SameButInput m (.next t.closeOnResult) (.next (State.closeOnResult { t with inBuf := m }))
    have : State.closeOnResult { t with inBuf := m } = { t.closeOnResult with inBuf := m } := by
      unfold State.closeOnResult; split <;> rfl
    rw [this]; exact .next
  | fault f => rw [h.2 f rfl]; exact ⟨nofun, fun _ h => by cases h; rfl⟩
  | refused f => exact ⟨nofun, nofun⟩

theorem readIn_congr {s : State} {m : Memory} {i : Nat} (h : Memory.read m i = Memory.read s.inBuf i) :
    ({ s with inBuf := m } : State).readIn i = s.readIn i := by
  unfold State.readIn; rw [h]

theorem readInSlice_update {s : State} {m : Memory} : ∀ (n a : Nat),
    (∀ j, a ≤ j → j < a + n → Memory.read m j = Memory.read s.inBuf j) →
    ({ s with inBuf := m } : State).readInSlice a n = s.readInSlice a n
  | 0, _, _ => rfl
  | n + 1, a, h => by
    simp only [State.readInSlice]
    rw [readIn_congr (h a (by omega) (by omega)), readInSlice_update n (a + 1) fun j h1 h2 => h j (by omega) (by omega)]

/-- DecodeCore of a Text frame reads `IN[2..n)` and byte 1 only, of which the length bits and, under
CHECK_MASK, the mask bit matter (R165 to R172). -/
theorem decodeText_update {s : State} {m : Memory} {n : Nat} {b1 b1' : Byte}
    (h1 : Memory.read s.inBuf 1 = some b1) (h1' : Memory.read m 1 = some b1')
    (hl : len7Field b1' = len7Field b1) (hm : s.cfg.checkMask = true → maskBit b1' = maskBit b1)
    (h : ∀ j, 2 ≤ j → j < n → Memory.read m j = Memory.read s.inBuf j) :
    decodeText { s with inBuf := m } n = decodeText s n := by
  unfold decodeText
  have e : ({ s with inBuf := m } : State).readIn 1 = .ok b1' := (readIn_ok_iff _ _ _).2 h1'
  rw [e, (readIn_ok_iff s 1 b1).2 h1]
  simp only [bind, Except.bind, hl]
  have hc : (s.cfg.checkMask && !maskBit b1') = (s.cfg.checkMask && !maskBit b1) := by
    cases hcm : s.cfg.checkMask
    · rfl
    · rw [hm hcm]
  rw [hc]
  split
  · rfl
  · generalize lenForm s.cfg.lenMode (len7Field b1) = f
    split
    · rfl
    · rename_i hn
      have e1 := f.keyOffset_add
      have e2 := f.extBytes_add
      rw [readInSlice_update _ _ fun j h1 h2 => h j h1 (by omega)]
      cases s.readInSlice 2 f.extBytes with
      | error e => rfl
      | ok ext =>
        simp only [decodePayload, State.readKey]
        rw [readIn_congr (h _ (by omega) (by omega)), readIn_congr (h _ (by omega) (by omega)),
          readIn_congr (h _ (by omega) (by omega)), readIn_congr (h _ (by omega) (by omega))]
        simp only [bind, Except.bind]
        split
        · rfl
        · split
          · rfl
          · rename_i hge
            rw [readInSlice_update _ _ fun j h1 h2 => h j (by omega) (by omega)]


theorem ignoreFrame_update {s : State} {m : Memory} {opc : BitVec 4} :
    SameButInput m (ignoreFrame opc s) (ignoreFrame opc { s with inBuf := m }) :=
  .withChunk fun _ _ => by rw [finishDecode_inBuf_update]; exact .next

theorem execClose_update {s : State} {m : Memory} {fin : Bool} {rsv : BitVec 3} :
    SameButInput m (execClose fin rsv s) (execClose fin rsv { s with inBuf := m }) :=
  .withChunk fun _ _ => by rw [finishDecode_inBuf_update]; exact .next

theorem execText_update {s : State} {m : Memory} {fin : Bool} {rsv : BitVec 3}
    (h : 6 ≤ s.inLen.toNat → decodeText { s with inBuf := m } s.inLen.toNat = decodeText s s.inLen.toNat) :
    SameButInput m (execText fin rsv s) (execText fin rsv { s with inBuf := m }) :=
  .withChunk fun _ h6 => .withRead (h h6) fun d => by rw [finishDecode_inBuf_update s m d]; exact .next

theorem readIn_none {s : State} {i : Nat} (h : Memory.read s.inBuf i = none) :
    s.readIn i = .error (.unwrittenInput i) := by
  unfold State.readIn; rw [h]

/-- A slice read stops at its first unwritten byte. -/
theorem readInSlice_unwritten {s : State} {i : Nat} (hi : s.firstUnwritten i) : ∀ {n a : Nat}, a ≤ i → i < a + n →
    s.readInSlice a n = .error (.unwrittenInput i)
  | 0, _, h, h' => by omega
  | n + 1, a, h, h' => by
    unfold State.readInSlice
    rcases Nat.eq_or_lt_of_le h with rfl | hlt
    · rw [readIn_none hi.1]
    · obtain ⟨b, hb⟩ := Option.isSome_iff_exists.1 (hi.2 a hlt)
      rw [(readIn_ok_iff s a b).2 hb, readInSlice_unwritten hi (by omega : a + 1 ≤ i) (by omega)]

/-- What a mask-key read gives (R169). -/
theorem readKey_ok {s : State} {k : Nat} {key : MaskKey} (h : s.readKey k = .ok key) :
    Memory.read s.inBuf k = some key.k0 ∧ Memory.read s.inBuf (k + 1) = some key.k1 ∧
    Memory.read s.inBuf (k + 2) = some key.k2 ∧ Memory.read s.inBuf (k + 3) = some key.k3 := by
  simp only [State.readKey, bind, Except.bind, pure, Except.pure] at h
  split at h; · cases h
  rename_i h0
  split at h; · cases h
  rename_i h1
  split at h; · cases h
  rename_i h2
  split at h; · cases h
  rename_i h3
  cases h
  exact ⟨(readIn_ok_iff ..).1 h0, (readIn_ok_iff ..).1 h1, (readIn_ok_iff ..).1 h2, (readIn_ok_iff ..).1 h3⟩

/-- A mask-key read stops at its first unwritten byte. -/
theorem readKey_unwritten {s : State} {i k : Nat} (hi : s.firstUnwritten i) (h : k ≤ i) (h' : i < k + 4) :
    s.readKey k = .error (.unwrittenInput i) := by
  have hs : ∀ j, j < i → ∃ b, s.readIn j = .ok b := fun j hj =>
    (Option.isSome_iff_exists.1 (hi.2 j hj)).imp fun _ => (readIn_ok_iff ..).2
  have hk : i = k ∨ i = k + 1 ∨ i = k + 2 ∨ i = k + 3 := by omega
  unfold State.readKey
  rcases hk with rfl | rfl | rfl | rfl
  · rw [readIn_none hi.1]; rfl
  · obtain ⟨b0, h0⟩ := hs k (by omega)
    rw [h0, readIn_none hi.1]; rfl
  · obtain ⟨b0, h0⟩ := hs k (by omega)
    obtain ⟨b1, h1⟩ := hs (k + 1) (by omega)
    rw [h0, h1, readIn_none hi.1]; rfl
  · obtain ⟨b0, h0⟩ := hs k (by omega)
    obtain ⟨b1, h1⟩ := hs (k + 1) (by omega)
    obtain ⟨b2, h2⟩ := hs (k + 2) (by omega)
    rw [h0, h1, h2, readIn_none hi.1]; rfl

/-- A decode reads the chunk only, and of byte 0 only the opcode (R57, R162). -/
theorem decodeChunk_update {s : State} {m : Memory}
    (h0 : s.inLen.toNat ≤ s.cfg.bufCap → 6 ≤ s.inLen.toNat →
      (Memory.read m 0 = none ∧ Memory.read s.inBuf 0 = none) ∨
      ∃ b b', Memory.read s.inBuf 0 = some b ∧ Memory.read m 0 = some b' ∧ opcodeNibble b' = opcodeNibble b)
    (h1 : s.inLen.toNat ≤ s.cfg.bufCap →
      ∀ j, 1 ≤ j → j < s.inLen.toNat → Memory.read m j = Memory.read s.inBuf j) :
    SameButInput m (decodeChunk s) (decodeChunk { s with inBuf := m }) := by
  refine .withChunk fun hl h6 => ?_
  rcases h0 hl h6 with ⟨h, h'⟩ | ⟨b, b', hb, hb', ho⟩
  · rw [readIn_none h', readIn_none h]; exact ⟨nofun, fun _ h => by cases h; rfl⟩
  · have e : ({ s with inBuf := m } : State).readIn 0 = .ok b' := (readIn_ok_iff _ _ _).2 hb'
    rw [e, (readIn_ok_iff s 0 b).2 hb]
    show SameButInput m (runFrame b s) (runFrame b' _)
    unfold runFrame
    rw [ho]
    split
    case h_2 =>
      have ht : 6 ≤ s.inLen.toNat →
          decodeText { s with inBuf := m } s.inLen.toNat = decodeText s s.inLen.toNat := fun h6 => by
        cases hb1 : Memory.read s.inBuf 1 with
        | some b1 =>
          exact decodeText_update hb1 ((h1 hl 1 (by omega) (by omega)).trans hb1) rfl (fun _ => rfl)
            (fun j hj hj' => h1 hl j (by omega) hj')
        | none =>
          have := (h1 hl 1 (by omega) (by omega)).trans hb1
          unfold decodeText; rw [readIn_none hb1, readIn_none (s := { s with inBuf := m }) this]; rfl
      exact execText_update (fin := finBit b) (rsv := rsvBits b) ht
    case h_9 => exact execClose_update (fin := finBit b) (rsv := rsvBits b)
    all_goals exact ignoreFrame_update

theorem execFeed_update {s : State} {m : Memory}
    (h : SameButInput m (decodeChunk s) (decodeChunk { s with inBuf := m })) :
    SameButInput m (execFeed s) (execFeed { s with inBuf := m }) := by
  by_cases hs : s.session = .opened
  · rw [execFeed_opened hs, execFeed_opened (s := { s with inBuf := m }) hs]; exact h.closeOnResult
  · rw [execFeed_not_opened hs, execFeed_not_opened (s := { s with inBuf := m }) hs]; exact .next

/-- A decode depends on the parameters and the input only (R38). -/
theorem decodeChunk_depends {s s' t : State} (hc : s'.cfg = s.cfg) (hl : s'.inLen = s.inLen)
    (hb : s'.inBuf = s.inBuf) (h : decodeChunk s = .next t) :
    (s.cfg.bufCap < s.inLen.toNat ∧ t = s.finishError .badLength ∧
      decodeChunk s' = .next (s'.finishError .badLength)) ∨
    (s.inLen.toNat ≤ s.cfg.bufCap ∧ ∃ d, DecodedOk s d ∧ t = s.finishDecode d ∧
      decodeChunk s' = .next (s'.finishDecode d)) := by
  have hr : s'.readIn = s.readIn := by funext i; unfold State.readIn; rw [hb]
  have hsl : ∀ n a, s'.readInSlice a n = s.readInSlice a n := by
    intro n; induction n with
    | zero => intro a; rfl
    | succ n ih => intro a; unfold State.readInSlice; rw [hr, ih]
  have hd : ∀ n, decodeText s' n = decodeText s n := by
    intro n; simp only [decodeText, decodePayload, State.readKey, hr, hsl, hc]
  rcases withChunk_next_iff.1 h with ⟨h1, rfl⟩ | ⟨h1, h2, rfl⟩ | ⟨h1, h2, h'⟩
  · exact .inl ⟨h1, rfl, checkLength_long (by rw [hc, hl]; exact h1)⟩
  · exact .inr ⟨h1, _, .short h2, rfl,
      withChunk_short (by rw [hc, hl]; exact h1) (by rw [hl]; exact h2)⟩
  · have g1 : s'.inLen.toNat ≤ s'.cfg.bufCap := by rw [hc, hl]; exact h1
    have g2 : 6 ≤ s'.inLen.toNat := by rw [hl]; exact h2
    obtain ⟨b, hbb, h'⟩ := withRead_next_iff.1 h'
    have hb' : decodeChunk s' = runFrame b s' := by
      unfold decodeChunk; rw [withChunk_fits g1 g2, hr, hbb]; rfl
    rw [hb']
    refine .inr ⟨h1, ?_⟩
    by_cases e1 : b.toNat % 16 = 1
    · rw [runFrame_eq_exec, decodeFrameByte_text e1] at h' ⊢
      have h := (withChunk_fits h1 h2).symm.trans h'
      obtain ⟨d, hdd, h⟩ := withRead_next_iff.1 h
      cases h
      refine ⟨d, decodeText_ok h2 hdd, rfl, (withChunk_fits g1 g2).trans ?_⟩
      rw [hl, hd, hdd]; rfl
    · by_cases e8 : b.toNat % 16 = 8
      · rw [runFrame_eq_exec, decodeFrameByte_close e8] at h' ⊢
        have h := (withChunk_fits h1 h2).symm.trans h'
        cases h
        exact ⟨_, .closeSignal, rfl, withChunk_fits g1 g2⟩
      · rw [runFrame_ignored e1 e8] at h' ⊢
        have h := (withChunk_fits h1 h2).symm.trans h'
        cases h
        exact ⟨_, .ignored (opcodeNibble_ne e1) (opcodeNibble_ne e8), rfl, withChunk_fits g1 g2⟩

/-- Output bytes do not depend on what the buffer held. -/
theorem read_writeBytes_congr (m m' : Memory) (bs : List Byte) {j : Nat} (h : j < bs.length) :
    Memory.read (Memory.writeBytes m' 0 bs) j =
      Memory.read (Memory.writeBytes m 0 bs) j := by
  rw [Memory.read_writeBytes_zero, Memory.read_writeBytes_zero, if_pos h, if_pos h]

end Sys2Proof.Machine
end

