-- ==== Sys2Proof/Laws/PerInstr.lean ====
section
/-! SUPPORT. The family TableBits: the code of a well-formed instruction has the number of bits that
spec/opcode_table.json gives its row, and meets the row's match under the row's mask. -/

namespace Sys2Proof.Laws

/-- The bits of a row of spec/opcode_table.json. -/
structure TableRow where
  nbits : Nat
  mask  : Nat
  bits  : Nat
deriving DecidableEq, Repr

/-- The row of an instruction, copied from spec/opcode_table.json. -/
def tableRow : Instr → TableRow
  | .nop                 => ⟨32, 0xFFFFFFFF, 0x00000000⟩
  | .sign                => ⟨32, 0xFFFFFFFF, 0x00000001⟩
  | .encode              => ⟨32, 0xFFFFFFFF, 0x00000002⟩
  | .decode              => ⟨32, 0xFFFFFFFF, 0x00000003⟩
  | .upgrade _           => ⟨32, 0xFFFFFEFF, 0x00000004⟩
  | .feed                => ⟨32, 0xFFFFFFFF, 0x00000005⟩
  | .disconnect          => ⟨32, 0xFFFFFFFF, 0x00000006⟩
  | .reservedCmd _ _ _ _ => ⟨32, 0x00000000, 0x00000000⟩
  | .text _ _            => ⟨8, 0x0F, 0x01⟩
  | .close _ _           => ⟨8, 0x0F, 0x08⟩
  | .ignored0 _ _        => ⟨8, 0x0F, 0x00⟩
  | .ignored2 _ _        => ⟨8, 0x0F, 0x02⟩
  | .ignored3 _ _        => ⟨8, 0x0F, 0x03⟩
  | .ignored4 _ _        => ⟨8, 0x0F, 0x04⟩
  | .ignored5 _ _        => ⟨8, 0x0F, 0x05⟩
  | .ignored6 _ _        => ⟨8, 0x0F, 0x06⟩
  | .ignored7 _ _        => ⟨8, 0x0F, 0x07⟩
  | .ignored9 _ _        => ⟨8, 0x0F, 0x09⟩
  | .ignoredA _ _        => ⟨8, 0x0F, 0x0A⟩
  | .ignoredB _ _        => ⟨8, 0x0F, 0x0B⟩
  | .ignoredC _ _        => ⟨8, 0x0F, 0x0C⟩
  | .ignoredD _ _        => ⟨8, 0x0F, 0x0D⟩
  | .ignoredE _ _        => ⟨8, 0x0F, 0x0E⟩
  | .ignoredF _ _        => ⟨8, 0x0F, 0x0F⟩
  | .textOut _           => ⟨16, 0xFF80, 0x8100⟩

/-- A code as the table numbers its bits: the number of bits, and the bits. -/
def codeBits : Code → Nat × Nat
  | .command w       => (32, w.toNat)
  | .frameByte b     => (8, b.toNat)
  | .outHeader b0 b1 => (16, b0.toNat * 256 + b1.toNat)

namespace TableBits

/-- The code of a well-formed instruction lies in its row. -/
def Statement (i : Instr) : Prop :=
  i.wf = true → (codeBits (encode i)).1 = (tableRow i).nbits ∧
    (codeBits (encode i)).2 &&& (tableRow i).mask = (tableRow i).bits

theorem nop : Statement .nop := fun _ => by decide
theorem sign : Statement .sign := fun _ => by decide
theorem encode : Statement .encode := fun _ => by decide
theorem decode : Statement .decode := fun _ => by decide
theorem upgrade (kp : Bool) : Statement (.upgrade kp) := fun _ => by revert kp; decide
theorem feed : Statement .feed := fun _ => by decide
theorem disconnect : Statement .disconnect := fun _ => by decide
theorem reservedCmd (op rsvdLo : BitVec 4) (kp : Bool) (rsvdHi : BitVec 23) :
    Statement (.reservedCmd op rsvdLo kp rsvdHi) := fun _ => ⟨rfl, Nat.and_zero _⟩
theorem text (fin : Bool) (rsv : BitVec 3) : Statement (.text fin rsv) := fun _ => by revert fin rsv; decide
theorem close (fin : Bool) (rsv : BitVec 3) : Statement (.close fin rsv) := fun _ => by revert fin rsv; decide
theorem ignored0 (fin : Bool) (rsv : BitVec 3) : Statement (.ignored0 fin rsv) := fun _ => by revert fin rsv; decide
theorem ignored2 (fin : Bool) (rsv : BitVec 3) : Statement (.ignored2 fin rsv) := fun _ => by revert fin rsv; decide
theorem ignored3 (fin : Bool) (rsv : BitVec 3) : Statement (.ignored3 fin rsv) := fun _ => by revert fin rsv; decide
theorem ignored4 (fin : Bool) (rsv : BitVec 3) : Statement (.ignored4 fin rsv) := fun _ => by revert fin rsv; decide
theorem ignored5 (fin : Bool) (rsv : BitVec 3) : Statement (.ignored5 fin rsv) := fun _ => by revert fin rsv; decide
theorem ignored6 (fin : Bool) (rsv : BitVec 3) : Statement (.ignored6 fin rsv) := fun _ => by revert fin rsv; decide
theorem ignored7 (fin : Bool) (rsv : BitVec 3) : Statement (.ignored7 fin rsv) := fun _ => by revert fin rsv; decide
theorem ignored9 (fin : Bool) (rsv : BitVec 3) : Statement (.ignored9 fin rsv) := fun _ => by revert fin rsv; decide
theorem ignoredA (fin : Bool) (rsv : BitVec 3) : Statement (.ignoredA fin rsv) := fun _ => by revert fin rsv; decide
theorem ignoredB (fin : Bool) (rsv : BitVec 3) : Statement (.ignoredB fin rsv) := fun _ => by revert fin rsv; decide
theorem ignoredC (fin : Bool) (rsv : BitVec 3) : Statement (.ignoredC fin rsv) := fun _ => by revert fin rsv; decide
theorem ignoredD (fin : Bool) (rsv : BitVec 3) : Statement (.ignoredD fin rsv) := fun _ => by revert fin rsv; decide
theorem ignoredE (fin : Bool) (rsv : BitVec 3) : Statement (.ignoredE fin rsv) := fun _ => by revert fin rsv; decide
theorem ignoredF (fin : Bool) (rsv : BitVec 3) : Statement (.ignoredF fin rsv) := fun _ => by revert fin rsv; decide
theorem textOut (len7 : BitVec 7) : Statement (.textOut len7) := fun h => by
  revert h; revert len7; decide +kernel

end TableBits

end Sys2Proof.Laws
end

