-- ==== Sys2Proof/Laws/Session.lean ====
section
/-! SUPPORT. Where UPGRADE's output puts its pieces, what `exec` can do to the session and to the host's
side, and which command word an unreserved instruction came from. -/

namespace Sys2Proof.Machine

open Sys2Proof

/-- The token stands at offset 98 of the upgrade header (R204). -/
theorem upgradeHeader_token {tok : List Byte} (ht : tok.length = 28) {j : Nat} (hj : j < 28) :
    (upgradeHeader tok)[98 + j]? = tok[j]? := by
  have hp : (statusLine ++ crlf ++ upgradeLine ++ crlf ++ connectionLine ++ crlf ++ acceptName).length = 98 := by
    decide
  have h : upgradeHeader tok =
      (statusLine ++ crlf ++ upgradeLine ++ crlf ++ connectionLine ++ crlf ++ acceptName) ++
        (tok ++ (crlf ++ crlf)) := by
    unfold upgradeHeader; simp only [List.append_assoc]
  rw [h]
  generalize statusLine ++ crlf ++ upgradeLine ++ crlf ++ connectionLine ++ crlf ++ acceptName = p at hp
  rw [List.getElem?_append_right (by omega), List.getElem?_append_left (by omega)]
  congr 1; omega

/-- A 130-byte header `hd` and the greeting frame, as read back from the buffer (R205). -/
theorem read_upgradeOutput (m : Memory) {hd g : List Byte} (hh : hd.length = 130) :
    (∀ j, j < 130 → Memory.read (Memory.writeBytes m 0 (hd ++ textFrame g)) j = hd[j]?) ∧
    Memory.read (Memory.writeBytes m 0 (hd ++ textFrame g)) 130 = some 0x81 ∧
    Memory.read (Memory.writeBytes m 0 (hd ++ textFrame g)) 131 = some (BitVec.ofNat 8 g.length) ∧
    ∀ j, j < g.length → Memory.read (Memory.writeBytes m 0 (hd ++ textFrame g)) (132 + j) = g[j]? := by
  have hl : (hd ++ textFrame g).length = 132 + g.length := by
    rw [List.length_append, textFrame_length]; omega
  refine ⟨fun j hj => ?_, ?_, ?_, fun j hj => ?_⟩
  · rw [Memory.read_writeBytes_zero, if_pos (by omega), List.getElem?_append_left (by omega)]
  all_goals rw [Memory.read_writeBytes_zero, if_pos (by omega), List.getElem?_append_right (by omega), hh]
  · rfl
  · rfl
  · rw [show 132 + j - 130 = j + 1 + 1 by omega]; rfl

/-- An input is determined by the state. -/
theorem inputIs_unique {s : State} {bs bs' : List Byte} (h : s.InputIs bs) (h' : s.InputIs bs') : bs = bs' := by
  have e := readInput_ok_iff.2 h
  rw [readInput_ok_iff.2 h'] at e
  cases e; rfl

/-- A decode moves neither the session nor the host's side. -/
theorem DecodeFinish.session_eq {s t : State} (h : DecodeFinish s t) : t.session = s.session := by
  rcases h with ⟨_, rfl⟩ | ⟨_, d, _, rfl⟩ <;> simp

theorem DecodeFinish.program_eq {s t : State} (h : DecodeFinish s t) : t.program = s.program := by
  rcases h with ⟨_, rfl⟩ | ⟨_, d, _, rfl⟩ <;> simp

/-- What an instruction can do to the session (R200). -/
theorem exec_session_cases {i : Instr} {s t : State} (h : exec i s = .next t) :
    (i = .disconnect ∧ t.session = .closed) ∨
    (i = .upgrade true ∧ s.session = .handshaking ∧ t.session = .opened ∧ t.status = .ok) ∨
    (i = .feed ∧ s.session = .opened ∧
      t.session = if t.status.closesSession then .closed else .opened) ∨
    (i ≠ .disconnect ∧ (i = .upgrade true → s.session = .handshaking → t.status ≠ .ok) ∧
      (i = .feed → s.session ≠ .opened) ∧ t.session = s.session) := by
  rcases exec_next_cases h with ⟨rfl, rfl⟩ | ⟨rfl, rfl⟩ | ⟨hr, r, hr', rfl⟩ | ⟨rfl, _, _, _, rfl⟩ |
    ⟨h1, _, _, rfl⟩ | ⟨rfl, hs, _, _, _, rfl⟩ | ⟨hr, hnf, hd⟩ | ⟨rfl, ⟨hs, rfl⟩ | ⟨hs, t', hd, rfl⟩⟩
  · exact .inr (.inr (.inr ⟨by simp, by simp, by simp, rfl⟩))
  · exact .inl ⟨rfl, rfl⟩
  · by_cases hdis : i = .disconnect
    · subst hdis
      injection h with h
      have hs : Result.ok = r := congrArg State.status h
      subst hs
      simp at hr'
    · refine .inr (.inr (.inr ⟨hdis, fun _ _ => ?_, ?_, rfl⟩))
      · rcases hr' with rfl | rfl | rfl | rfl | rfl <;> simp
      · rintro rfl; cases hr
  · exact .inr (.inr (.inr ⟨by simp, by simp, by simp, rfl⟩))
  · exact .inr (.inr (.inr ⟨by rcases h1 with rfl | ⟨l, rfl⟩ <;> simp, by rcases h1 with rfl | ⟨l, rfl⟩ <;> simp,
      by rcases h1 with rfl | ⟨l, rfl⟩ <;> simp, rfl⟩))
  · exact .inr (.inl ⟨rfl, hs, rfl, rfl⟩)
  · refine .inr (.inr (.inr ⟨?_, ?_, fun hi => absurd hi hnf, hd.session_eq⟩))
    · rintro rfl; cases hr
    · rintro rfl; cases hr
  · exact .inr (.inr (.inr ⟨by simp, by simp, fun _ => hs, rfl⟩))
  · exact .inr (.inr (.inl ⟨rfl, hs, by simp [hd.session_eq, hs]⟩))

/-- No instruction touches the host's accesses still to come. -/
theorem exec_program {i : Instr} {s t : State} (h : exec i s = .next t) : t.program = s.program := by
  rcases exec_next_cases h with ⟨_, rfl⟩ | ⟨_, rfl⟩ | ⟨_, r, _, rfl⟩ | ⟨_, _, _, _, rfl⟩ | ⟨_, _, _, rfl⟩ |
    ⟨_, _, _, _, _, rfl⟩ | ⟨_, _, hd⟩ | ⟨_, ⟨_, rfl⟩ | ⟨_, t', hd, rfl⟩⟩
  case inr.inr.inr.inr.inr.inr.inl => exact hd.program_eq
  case inr.inr.inr.inr.inr.inr.inr.inr => simp [hd.program_eq]
  all_goals rfl

/-- The word of a command that is not reserved is the command's encoding (R70, R72). -/
theorem encode_decodeCommandWord {w : Word} {i : Instr} (h : decodeCommandWord w = i)
    (hn : ∀ op lo kp hi, i ≠ .reservedCmd op lo kp hi) : Sys2Proof.encode i = .command w := by
  by_cases hr : reservedWord w
  · rw [decodeCommandWord_reserved hr] at h; exact absurd h.symm (hn _ _ _ _)
  · subst h
    rw [← reservedFields_iff] at hr
    have hw := commandWord_fields w
    unfold decodeCommandWord at *
    generalize w.extractLsb' 0 4 = op at *
    generalize w.extractLsb' 4 4 = lo at *
    generalize w.extractLsb' 9 23 = hi at *
    generalize w.getLsbD 8 = kp at *
    have h0 : hi = 0 ∧ lo = 0 := by
      constructor
      · simp [reservedFields] at hr; exact hr.1.1.1
      · simp [reservedFields] at hr; exact hr.1.1.2
    obtain ⟨rfl, rfl⟩ := h0
    simp only [and_self, if_true]
    have hall : ∀ (op : BitVec 4) (kp : Bool),
        Sys2Proof.encode ((decodeOp op kp).getD (.reservedCmd op 0 kp 0)) = .command (commandWord op 0 kp 0) := by
      decide
    rw [hall op kp, hw]

end Sys2Proof.Machine
end

