-- ==== Sys2Proof/Laws/Signer.lean ====
section
/-! SUPPORT. The words of a SHA-1 block and its message schedule (R101, R104). -/

namespace Sys2Proof.Machine

open Sys2Proof

theorem rotl_one (x : Word) : rotl 1 x = x.rotateLeft 1 := by
  unfold rotl; rw [BitVec.rotateLeft_def]

theorem extendSchedule_length : ∀ (n : Nat) (ws : List Word), (extendSchedule n ws).length = n + ws.length
  | 0, ws => by simp [extendSchedule]
  | n + 1, ws => by rw [extendSchedule, extendSchedule_length n]; simp; omega

/-- Extending a schedule keeps its older words (newest first). -/
theorem extendSchedule_append : ∀ (n : Nat) (ws : List Word),
    ∃ new, extendSchedule n ws = new ++ ws ∧ new.length = n
  | 0, ws => ⟨[], rfl, rfl⟩
  | n + 1, ws => by
    obtain ⟨new, h, hl⟩ := extendSchedule_append n (nextWord ws :: ws)
    exact ⟨new ++ [nextWord ws], by simp [extendSchedule, h], by simp [hl]⟩

/-- Every added word is `nextWord` of the ones before it (R104). -/
theorem extendSchedule_drop : ∀ (n k : Nat) (ws : List Word), k < n →
    (extendSchedule n ws).drop k = nextWord ((extendSchedule n ws).drop (k + 1)) ::
      (extendSchedule n ws).drop (k + 1)
  | n + 1, k, ws, h => by
    by_cases hk : k < n
    · exact extendSchedule_drop n k _ hk
    · obtain rfl : k = n := by omega
      obtain ⟨new, hn, hl⟩ := extendSchedule_append k (nextWord ws :: ws)
      rw [extendSchedule, hn, List.drop_left' hl]
      have : (new ++ nextWord ws :: ws).drop (k + 1) = ws := by
        rw [show new ++ nextWord ws :: ws = (new ++ [nextWord ws]) ++ ws by simp, List.drop_left' (by simp [hl])]
      rw [this]

theorem wordsBE_length (b : List Byte) : (wordsBE b).length = b.length / 4 := by
  induction b using wordsBE.induct with
  | case1 a b c d rest ih => simp [wordsBE, ih]; omega
  | case2 l h =>
    unfold wordsBE
    split
    · exact absurd rfl (h _ _ _ _ _)
    · match l, h with
      | [], _ | [_], _ | [_, _], _ | [_, _, _], _ => simp
      | a :: b :: c :: d :: r, h => exact absurd rfl (h _ _ _ _ _)

theorem wordsBE_getElem? (b : List Byte) : ∀ t, 4 * t + 4 ≤ b.length →
    (wordsBE b)[t]? =
      some (b.getD (4 * t) 0 ++ b.getD (4 * t + 1) 0 ++ b.getD (4 * t + 2) 0 ++ b.getD (4 * t + 3) 0) := by
  induction b using wordsBE.induct with
  | case1 a b c d rest ih =>
    intro t ht
    cases t with
    | zero => simp [wordsBE]
    | succ t =>
      rw [wordsBE, List.getElem?_cons_succ, ih t (by simp at ht; omega)]
      rfl
  | case2 l h =>
    intro t ht
    match l, h with
    | [], _ | [_], _ | [_, _], _ | [_, _, _], _ => simp at ht; try omega
    | a :: b :: c :: d :: r, h => exact absurd rfl (h _ _ _ _ _)

end Sys2Proof.Machine
end

