-- ==== Sys2Proof/Tests/Slice0.lean ====
section
/-! SUPPORT. Tests: words written out from the spec's encodings, ill-formed terms, vectors of
spec/95_test_vectors.md, and for each statement with hypotheses a state and operands that meet them. -/

namespace Sys2Proof.Tests

set_option Elab.async false

open Sys2Proof Sys2Proof.Machine

/-! ### Decoding words written out from R70, R72, R80, R85 and R82 -/

theorem test_decode_commands :
    decode (.command 0b00000000000000000000000000000000) = .ok .nop ∧
    decode (.command 0b00000000000000000000000000000001) = .ok .sign ∧
    decode (.command 0b00000000000000000000000000000010) = .ok .encode ∧
    decode (.command 0b00000000000000000000000000000011) = .ok .decode ∧
    decode (.command 0b00000000000000000000000000000100) = .ok (.upgrade false) ∧
    decode (.command 0b00000000000000000000000100000100) = .ok (.upgrade true) ∧
    decode (.command 0b00000000000000000000000000000101) = .ok .feed ∧
    decode (.command 0b00000000000000000000000000000110) = .ok .disconnect := by decide

/-- R72: OP 7 and 15, KP on SIGN, bit 4, bit 9 and bit 31. -/
theorem test_decode_reserved :
    decode (.command 0b00000000000000000000000000000111) = .ok (.reservedCmd 7 0 false 0) ∧
    decode (.command 0b00000000000000000000000000001111) = .ok (.reservedCmd 15 0 false 0) ∧
    decode (.command 0b00000000000000000000000100000001) = .ok (.reservedCmd 1 0 true 0) ∧
    decode (.command 0b00000000000000000000000000010010) = .ok (.reservedCmd 2 1 false 0) ∧
    decode (.command 0b00000000000000000000001000000000) = .ok (.reservedCmd 0 0 false 1) ∧
    decode (.command 0b10000000000000000000000000000110) = .ok (.reservedCmd 6 0 false 0x400000) := by decide

/-- R80, R85: FIN is bit 7, RSV bits 6 to 4, the opcode bits 3 to 0. -/
theorem test_decode_frames :
    decode (.frameByte 0b10000001) = .ok (.text true 0) ∧
    decode (.frameByte 0b01010001) = .ok (.text false 5) ∧
    decode (.frameByte 0b10001000) = .ok (.close true 0) ∧
    decode (.frameByte 0b00000000) = .ok (.ignored0 false 0) ∧
    decode (.frameByte 0b10000010) = .ok (.ignored2 true 0) ∧
    decode (.frameByte 0b00010011) = .ok (.ignored3 false 1) ∧
    decode (.frameByte 0b00100100) = .ok (.ignored4 false 2) ∧
    decode (.frameByte 0b01000101) = .ok (.ignored5 false 4) ∧
    decode (.frameByte 0b11110110) = .ok (.ignored6 true 7) ∧
    decode (.frameByte 0b00000111) = .ok (.ignored7 false 0) ∧
    decode (.frameByte 0b10001001) = .ok (.ignored9 true 0) ∧
    decode (.frameByte 0b10001010) = .ok (.ignoredA true 0) ∧
    decode (.frameByte 0b00001011) = .ok (.ignoredB false 0) ∧
    decode (.frameByte 0b00001100) = .ok (.ignoredC false 0) ∧
    decode (.frameByte 0b00001101) = .ok (.ignoredD false 0) ∧
    decode (.frameByte 0b00001110) = .ok (.ignoredE false 0) ∧
    decode (.frameByte 0b00001111) = .ok (.ignoredF false 0) := by decide

/-- R82, R141: the header, and the three ways not to be one. -/
theorem test_decode_outHeader :
    decode (.outHeader 0b10000001 0b00000101) = .ok (.textOut 5) ∧
    decode (.outHeader 0b10000010 0b00000101) = .error .notTextOut ∧
    decode (.outHeader 0b10000001 0b10000101) = .error .outMaskSet ∧
    decode (.outHeader 0b10000001 0b01111110) = .error .outLenMarker := by decide

/-- The table's numbering of TEXT_OUT: bytes 0 and 1 as a big-endian 16-bit value. -/
theorem test_decode_tableWord :
    decodeTableWord 16 0x8105 = some (.textOut 5) ∧ decodeTableWord 16 0x8180 = none ∧
    decodeTableWord 32 0x00000104 = some (.upgrade true) ∧ decodeTableWord 8 0x88 = some (.close true 0) := by
  decide

/-! ### WellFormed refuses ill-formed terms -/

/-- The fields of NOP and of UPGRADE with a key are no reserved command. -/
theorem test_wf_reserved :
    Instr.wf (.reservedCmd 0 0 false 0) = false ∧ Instr.wf (.reservedCmd 4 0 true 0) = false ∧
    Instr.wf (.reservedCmd 6 0 false 0) = false ∧ Instr.wf (.reservedCmd 3 0 true 0) = true := by decide

theorem test_wf_textOut :
    Instr.wf (.textOut 126) = false ∧ Instr.wf (.textOut 127) = false ∧ Instr.wf (.textOut 125) = true := by
  decide

/-! ### States for the tests -/

/-- Fresh from reset but for the session and an input placed in IN_BUF. -/
def withInput (c : Config) (ses : Session) (bs : List Byte) : State :=
  { State.resetOf c with
    session := ses
    inBuf := Memory.writeBytes [] 0 bs
    inLen := BitVec.ofNat 32 bs.length }

theorem withInput_inputIs (c : Config) (ses : Session) {bs : List Byte} (h : bs.length < 2 ^ 32) :
    (withInput c ses bs).InputIs bs := by
  constructor
  · show (BitVec.ofNat 32 bs.length).toNat = bs.length
    rw [BitVec.toNat_ofNat]; exact Nat.mod_eq_of_lt h
  · intro i hi
    show Memory.read (Memory.writeBytes [] 0 bs) i = _
    rw [Memory.read_writeBytes_zero, if_pos hi]

/-- The same with the host's next access. -/
def withAccess (s : State) (a : HostAccess) : State := { s with program := [a] }

/-- `f` of the state after, if a step goes on. -/
def after {α : Type} (r : StepResult) (f : State → α) : Option α :=
  match r with
  | .next t => some (f t)
  | .fault _ => none
  | .refused _ => none

/-- The fault, if a step stops with one. -/
def stop (r : StepResult) : Option Fault :=
  match r with
  | .fault f => some f
  | .next _ => none
  | .refused _ => none

/-- `OUT[a..a+n)`. -/
def outSlice (t : State) (a n : Nat) : List (Option Byte) := (List.range n).map fun i => Memory.read t.outBuf (a + i)

/-- `OUT[0..OUT_LEN)`. -/
def out (t : State) : List (Option Byte) := outSlice t 0 t.outLen.toNat

def ref : Config := Config.reference
def literal : Config := { Config.reference with lenMode := .literal }
def noMask : Config := { Config.reference with checkMask := false }

def sampleKey : List Byte := asciiBytes "dGhlIHNhbXBsZSBub25jZQ=="
def helloFrame : List Byte := [0x81, 0x85, 0x01, 0x02, 0x03, 0x04, 0x49, 0x67, 0x6F, 0x68, 0x6E]
def helloText : List Byte := [0x48, 0x65, 0x6C, 0x6C, 0x6F]
def closeFrame : List Byte := [0x88, 0x80, 0x00, 0x00, 0x00, 0x00]

/-! ### Vectors of spec/95_test_vectors.md -/

/-- Section 2.1: SHA-1("abc"), and base64 in its three group cases. -/
theorem test_sha1_abc : sha1 (asciiBytes "abc") =
    [0xA9, 0x99, 0x3E, 0x36, 0x47, 0x06, 0x81, 0x6A, 0xBA, 0x3E, 0x25, 0x71, 0x78, 0x50, 0xC2, 0x6C,
     0x9C, 0xD0, 0xD8, 0x9D] := by decide +kernel

theorem test_base64_groups :
    base64 (asciiBytes "Man") = asciiBytes "TWFu" ∧ base64 (asciiBytes "Ma") = asciiBytes "TWE=" ∧
    base64 (asciiBytes "M") = asciiBytes "TQ==" := by decide +kernel

/-- V71: NOP leaves a STATUS other than IDLE. -/
theorem test_nop_v71 : exec .nop { State.reset with status := .badLength, outLen := 7 } =
    .next { State.reset with status := .badLength, outLen := 7 } := rfl

/-- V2. -/
theorem test_sign_v2 : after (exec .sign (withInput ref .handshaking [])) (fun t => (t.status, t.auxLen, out t)) =
    some (.ok, 0, (asciiBytes "Kfh9QIsMVZcl6xEPYxPHzW8SZ8w=").map some) := by decide +kernel

/-- V5: alphabet values 62 and 63. -/
theorem test_sign_v5 : after (exec .sign (withInput ref .closed [0xFF, 0xFF, 0xFF])) (fun t => (t.session, out t)) =
    some (.closed, (asciiBytes "Hfha2ydSLmMUaeTRMTAYmq/CsHk=").map some) := by decide +kernel

/-- V11. -/
theorem test_encode_v11 : after (exec .encode (withInput ref .opened helloText)) (fun t => (t.status, out t)) =
    some (.ok, [some 0x81, some 0x05, some 0x48, some 0x65, some 0x6C, some 0x6C, some 0x6F]) := by decide +kernel

/-- V14. -/
theorem test_encode_v14 :
    after (exec .encode (withInput ref .opened (List.replicate 126 0x41))) (fun t => (t.status, t.outLen, t.outBuf)) =
    some (.payloadTooLong, 0, []) := by decide +kernel

/-- V20, at the host port: the step that writes DECODE to CMD. -/
theorem test_decode_v20 : after (step (withAccess (withInput ref .handshaking helloFrame) (cmd 3)))
    (fun t => ((t.status, t.session, t.decOpcode), t.decLen, t.decMaskKey, out t)) =
    some ((.ok, .handshaking, 1), 5, 0x01020304, helloText.map some) := by decide +kernel

/-- V42: a 64-bit length with bit 63 set. -/
theorem test_decode_v42 : after (exec .decode (withInput ref .handshaking
    [0x81, 0xFF, 0x80, 0, 0, 0, 0, 0, 0, 0, 1, 2, 3, 4, 0x61, 0x62, 0x63])) (fun t => (t.status, t.decOpcode, t.outLen)) =
    some (.truncatedFrame, 1, 0) := by decide +kernel

/-- V60: lengths, session, the token's place, and the last bytes of Program 1's dump. -/
theorem test_upgrade_v60 : after (exec (.upgrade true) (withInput ref .handshaking sampleKey))
    (fun t => ((t.status, t.session, t.outLen), t.auxLen, outSlice t 96 4, outSlice t 124 13)) =
    some ((.ok, .opened, 137), 130, [some 0x3A, some 0x20, some 0x73, some 0x33],
      [some 0x6F, some 0x3D, some 0x0D, some 0x0A, some 0x0D, some 0x0A, some 0x81, some 0x05, some 0x48, some 0x65,
       some 0x6C, some 0x6C, some 0x6F]) := by decide +kernel

/-- V61. -/
theorem test_upgrade_v61 : after (exec (.upgrade false) (withInput ref .handshaking sampleKey))
    (fun t => (t.status, t.session, t.outLen)) = some (.missingKey, .handshaking, 0) := by decide +kernel

/-- V65, source example S7. -/
theorem test_feed_v65 : after (exec .feed (withInput ref .opened
    [0x82, 0x85, 0x01, 0x02, 0x03, 0x04, 0x61, 0x62, 0x63, 0x64, 0x65])) (fun t => (t.status, t.session, t.decOpcode)) =
    some (.ignored, .opened, 2) := by decide +kernel

/-- V68. -/
theorem test_feed_v68 : after (exec .feed (withInput ref .opened
    [0x81, 0x05, 0x01, 0x02, 0x03, 0x04, 0x49, 0x67, 0x6F, 0x68, 0x6E])) (fun t => (t.status, t.session, t.decMaskKey)) =
    some (.unmaskedClientFrame, .closed, 0) := by decide +kernel

/-- V70. -/
theorem test_disconnect_v70 : after (exec .disconnect (withInput ref .opened helloText))
    (fun t => (t.status, t.session, t.outLen)) = some (.ok, .closed, 0) := by decide +kernel

/-- V73, at the host port. -/
theorem test_reserved_v73 : after (step (withAccess (withInput ref .opened helloText) (wr .cmd 0x00000012)))
    (fun t => (t.status, t.session)) = some (.badCommand, .opened) := by decide +kernel

/-- V41: a non-minimal 64-bit length. -/
theorem test_text_v41 : after (exec (.text true 0) (withInput ref .opened
    [0x81, 0xFF, 0, 0, 0, 0, 0, 0, 0, 3, 1, 2, 3, 4, 0x79, 0x7B, 0x79])) (fun t => (t.status, t.decLen, out t)) =
    some (.ok, 3, [some 0x78, some 0x79, some 0x7A]) := by decide +kernel

/-- V45: in LITERAL, LEN7 = 126 is the length 126. -/
theorem test_text_v45 : after (exec (.text true 0) (withInput literal .opened
    [0x81, 0xFE, 0, 3, 1, 2, 3, 4, 0x60, 0x60, 0x60])) (fun t => (t.status, t.decOpcode)) =
    some (.truncatedFrame, 1) := by decide +kernel

/-- V23. -/
theorem test_close_v23 : after (exec .decode (withInput ref .opened [0x08, 0x7F, 0xAA, 0xBB, 0xCC, 0xDD]))
    (fun t => (t.status, t.decOpcode, t.session)) = some (.closeSignal, 8, .opened) := by decide +kernel

/-- V25 to V28, and R164 for the other Ignored opcodes. -/
theorem test_ignored : ∀ b ∈ ([0x80, 0x82, 0x83, 0x84, 0x85, 0x86, 0x87, 0x89, 0x8A, 0x8B, 0x8C, 0x8D, 0x8E, 0x8F] : List Byte),
    after (exec .decode (withInput ref .opened [b, 0x80, 1, 2, 3, 4])) (fun t => (t.status, t.decOpcode.toNat)) =
      some (.ignored, b.toNat % 16) := by decide +kernel

/-- V12. -/
theorem test_textOut_v12 : after (exec (.textOut 4) (withInput ref .opened [0x00, 0xFF, 0xC3, 0xA9])) out =
    some [some 0x81, some 0x04, some 0x00, some 0xFF, some 0xC3, some 0xA9] := by decide +kernel

/-! ### The host port -/

/-- R32, R33: CFG is 3 and BUFCAP 4096 in the reference configuration. -/
theorem test_read_cfg : State.reset.hostRead 0x28 = 3 ∧ State.reset.hostRead 0x2C = 0x1000 := by decide

/-- R53: an 8-bit register access is stuck. -/
theorem test_stuck : stop (step (withAccess State.reset (.write 0x0 1 0))) = some (.hostProtocol 0 1) := by decide

/-- U7: a command that reads an unwritten input byte faults. -/
theorem test_unwritten : stop (exec .encode { State.reset with inLen := 1 }) = some (.unwrittenInput 0) := by decide

/-! ### For each statement with hypotheses: a state and operands that meet them -/

/-- A state no reset leaves: open, with an output, a decoded frame and an access pending. -/
def busy : State :=
  { withInput ref .opened helloFrame with
    status := .ok
    outBuf := [(0, 0x48), (1, 0x69), (2, 0x21)]
    outLen := 2
    decOpcode := 1
    decMaskKey := 0x01020304
    decLenLo := 5
    program := [cmd 5] }

theorem wit_EncodedInstructionDecodesBack :
    Instr.wf (.reservedCmd 15 15 true 0x7FFFFF) = true ∧ Instr.wf (.textOut 0) = true ∧
    Instr.wf (.textOut 125) = true ∧ Instr.wf (.close true 7) = true := by decide

theorem wit_DecodedCodeEncodesBack :
    decode (.outHeader 0x81 0x7D) = .ok (.textOut 125) ∧
    decode (.command 0xFFFFFFFF) = .ok (.reservedCmd 15 15 true 0x7FFFFF) ∧
    decode (.frameByte 0xFF) = .ok (.ignoredF true 7) := by decide

/-- The reserved words at the edges of R72's fields; the eight legal words are none of them. -/
theorem wit_CmdWritePreChecksInOrder_words :
    (∀ w ∈ ([0x7, 0xF, 0x10, 0x101, 0x105, 0x200, 0xFFFFFFFF] : List Word), reservedWord w) ∧
    (∀ w ∈ ([0, 1, 2, 3, 4, 0x104, 5, 6] : List Word), ¬ reservedWord w) := by
  simp [reservedWord]

/-- The states of each clause: the session, and IN_LEN one beyond the buffer. -/
theorem wit_CmdWritePreChecksInOrder :
    (withAccess (withInput ref .closed []) (.write 0 4 0x104)).program = .write 0 4 0x104 :: [] ∧
    (withInput ref .closed []).session ≠ .handshaking ∧ (withInput ref .handshaking []).session ≠ .opened ∧
    (withInput ref .handshaking []).session = .handshaking ∧
    ({ withInput ref .opened [] with inLen := 4097 } : State).cfg.bufCap < (4097 : Word).toNat ∧
    ({ withInput ref .opened [] with inLen := 4097 } : State).session = .opened := by decide

theorem wit_CmdWriteRunsDecodedInstruction : busy.program = .write 0 4 5 :: [] := by decide

theorem wit_DecodeRunsTheInstructionOfByte0 :
    let s := withInput ref .opened closeFrame
    s.inLen.toNat ≤ s.cfg.bufCap ∧ 6 ≤ s.inLen.toNat ∧ Memory.read s.inBuf 0 = some 0x88 ∧ s.session = .opened := by
  decide

theorem wit_EncodeRunsTextOutOfInLen :
    let s := withInput ref .opened (List.replicate 125 0x41)
    s.inLen.toNat ≤ s.cfg.bufCap ∧ s.inLen.toNat ≤ 125 := by decide +kernel

theorem wit_FetchedTableWordRuns :
    State.reset.cfg.wf = true ∧ decodeTableWord 32 6 = some .disconnect ∧
    decodeTableWord 8 0xF8 = some (.close true 7) ∧ decodeTableWord 16 0x817D = some (.textOut 125) := by decide

theorem wit_IdleHoldsItsState : State.reset.program = [] := by decide

/-- A read, the write to IN_LEN, the last byte of IN_BUF, and writes that are ignored: a read-only
register, one byte beyond BUF_CAP, and OUT_BUF. -/
theorem wit_OnlyCmdWritesHaveSideEffects :
    busy.cfg.wf = true ∧ (withAccess busy (.read 0x4 4)).program = .read 0x4 4 :: [] ∧
    accessAllowed 0x4 4 = true ∧ accessAllowed 0x2FFFF 1 = true ∧ 4095 < busy.cfg.bufCap ∧
    (accessAllowed 0x4 4 = true ∧ (0x4 : Word) ≠ 0 ∧ (0x4 : Word) ≠ 0xC ∧ (0x4 : Word).toNat < 0x10000) ∧
    (accessAllowed 0x11000 1 = true ∧ 0x10000 + busy.cfg.bufCap ≤ (0x11000 : Word).toNat) ∧
    (accessAllowed 0x20000 1 = true ∧ 0x10000 + busy.cfg.bufCap ≤ (0x20000 : Word).toNat) := by decide

/-- The ends of the unassigned offsets, and a state in each session state. -/
theorem wit_RegisterReadValues :
    (0x30 ≤ 0x30 ∧ 0x30 ≤ 0xFFC ∧ 0xFFC ≤ 0xFFC) ∧ State.reset.session = .handshaking ∧ busy.session = .opened ∧
    (withInput ref .closed []).session = .closed := by decide

theorem wit_BufferWindowReadValues :
    busy.cfg.wf = true ∧ 0 < busy.cfg.bufCap ∧ Memory.read busy.inBuf 0 = some 0x81 ∧
    Memory.read busy.outBuf 1 = some 0x69 ∧ busy.cfg.bufCap ≤ 4096 ∧ 0xFFFF < 0x10000 := by decide

theorem wit_DisallowedAccessIsStuck :
    (withAccess State.reset (.read 0xFFE 4)).program = .read 0xFFE 4 :: [] ∧
    ((0xFFE : Word).toNat < 0x1000 ∧ (0xFFE : Word).toNat % 4 ≠ 0) ∧
    (withAccess State.reset (.write 0x10000 4 0)).program = .write 0x10000 4 0 :: [] ∧
    (0x10000 ≤ (0x10000 : Word).toNat ∧ (0x2FFFF : Word).toNat < 0x30000 ∧ 1 < 4) := by decide

theorem wit_InputByteWriteThenRead :
    busy.cfg.wf = true ∧ 4095 < busy.cfg.bufCap ∧ (withAccess busy (wb 4095 0xAB)).program = wb 4095 0xAB :: [] := by
  decide

theorem wit_LoadPlacesTheInput :
    busy.cfg.wf = true ∧ ([] : List Byte).length ≤ busy.cfg.bufCap ∧ helloText.length ≤ busy.cfg.bufCap ∧
    ({ busy with program := load helloText ++ [cmd 2] } : State).program = load helloText ++ [cmd 2] := by decide

theorem wit_ResetInputRestoresEveryRegister : (withAccess busy .reset).program = .reset :: [] := by decide

theorem wit_ResetStateRegisterReads : Reg.decLenHi ≠ .cfg ∧ Reg.decLenHi ≠ .bufCap := by decide

theorem wit_ResetMeetsTheInvariant :
    Config.wf ⟨132, .literal, false, []⟩ = true ∧ Config.wf ⟨65536, .rfc, true, List.replicate 125 0x41⟩ = true := by
  decide +kernel

theorem wit_StepKeepsTheInvariant : busy.Inv ∧ ∃ t, step busy = .next t ∧ t.status = .ok := by
  refine ⟨?_, _, rfl, by decide +kernel⟩
  refine ⟨by decide, by decide, by decide, by decide, by decide, by decide, ?_, .inl (by decide), by decide, by decide,
    by decide, by decide⟩
  intro i hi
  have hi : i < 2 := hi
  interval_cases i <;> decide

theorem wit_FailedCommandWritesNoOutput :
    (∃ t, exec .feed (withInput ref .opened closeFrame) = .next t ∧ t.status = .closeSignal) ∧
    (∃ t, exec .decode (withInput ref .opened [0x82, 0, 0, 0, 0, 0]) = .next t ∧ t.status = .ignored) ∧
    (∃ t, exec .decode (withInput ref .opened [0x81]) = .next t ∧ t.status = .truncatedFrame) ∧
    (∃ t, exec .decode (withInput ref .opened [0x81, 0, 0, 0, 0, 0]) = .next t ∧ t.status = .unmaskedClientFrame) ∧
    (∃ t, exec (.reservedCmd 7 0 false 0) busy = .next t ∧ t.status = .badCommand) ∧
    (∃ t, exec (.upgrade true) busy = .next t ∧ t.status = .badState) ∧
    (∃ t, exec (.upgrade false) State.reset = .next t ∧ t.status = .missingKey) ∧
    (∃ t, exec .encode { busy with inLen := 4097 } = .next t ∧ t.status = .badLength) ∧
    (∃ t, exec .encode { busy with inLen := 126 } = .next t ∧ t.status = .payloadTooLong) :=
  ⟨⟨_, rfl, by decide +kernel⟩, ⟨_, rfl, by decide +kernel⟩, ⟨_, rfl, by decide +kernel⟩, ⟨_, rfl, by decide +kernel⟩,
    ⟨_, rfl, by decide +kernel⟩, ⟨_, rfl, by decide +kernel⟩, ⟨_, rfl, by decide +kernel⟩, ⟨_, rfl, by decide +kernel⟩,
    ⟨_, rfl, by decide +kernel⟩⟩

theorem wit_CommandsNeverWriteTheInput : ∃ t, exec .decode busy = .next t ∧ t.status = .ok :=
  ⟨_, rfl, by decide +kernel⟩

theorem wit_DecRegistersWrittenByDecodeOnly :
    (∃ t, exec .encode busy = .next t ∧ t.status = .ok) ∧ runsDecode .encode = false :=
  ⟨⟨_, rfl, by decide +kernel⟩, by decide⟩

/-- ENCODE of no bytes leaves the third byte of `busy`'s output. -/
theorem wit_OutputBufferBeyondOutLenUnchanged :
    busy.cfg.wf = true ∧ ∃ t, exec .encode { busy with inLen := 0 } = .next t ∧ t.outLen.toNat ≤ 2 ∧
      Memory.read t.outBuf 2 = some 0x21 :=
  ⟨by decide, _, rfl, by decide +kernel, by decide +kernel⟩

theorem wit_CommandsReadOnlyTheInput :
    isCommand .decode = true ∧ ({ busy with inLen := 4097 } : State).cfg.bufCap < (4097 : Word).toNat ∧
    (∀ j, j < ({ busy with inLen := 6 } : State).inLen.toNat →
      Memory.read (Memory.write busy.inBuf 6 0xFF) j = Memory.read busy.inBuf j) ∧
    (∃ t, exec .decode { busy with inLen := 6 } = .next t ∧ t.status = .truncatedFrame) ∧
    ∃ f, exec .decode { State.reset with inLen := 6 } = .fault f := by
  refine ⟨by decide, by decide, ?_, ⟨_, rfl, by decide +kernel⟩, _, rfl⟩
  intro j hj
  have hj : j < 6 := hj
  interval_cases j <;> decide

theorem wit_OutputsDependOnTheInputOnly :
    let s := withInput ref .opened helloFrame
    busy.cfg = s.cfg ∧ busy.session = s.session ∧ busy.inLen = s.inLen ∧ busy.inBuf = s.inBuf ∧ s.cfg.wf = true ∧
    s.inLen.toNat ≤ s.cfg.bufCap ∧ ∃ t, exec .decode s = .next t ∧ t.outLen.toNat = 5 :=
  ⟨rfl, rfl, rfl, rfl, by decide, by decide, _, rfl, by decide +kernel⟩

theorem wit_SignWritesTheAcceptToken :
    (4096 < ({ busy with inLen := 4097 } : State).inLen.toNat ∧ busy.cfg.bufCap = 4096) ∧
    (withInput ref .closed sampleKey).inLen.toNat ≤ ref.bufCap ∧
    (withInput ref .closed sampleKey).InputIs sampleKey ∧ (withInput ref .closed []).InputIs [] :=
  ⟨by decide, by decide +kernel, withInput_inputIs _ _ (by decide +kernel), withInput_inputIs _ _ (by decide)⟩

theorem wit_Sha1PaddingAndWords :
    ([] : List Byte).length ≤ 65536 + 36 ∧ (List.replicate 64 (0 : Byte)).length = 64 ∧ 15 < 16 := by decide

theorem wit_Sha1ScheduleRecurrence : (List.replicate 64 (0 : Byte)).length = 64 ∧ 15 < 16 ∧ 16 ≤ 16 ∧ 79 < 80 := by
  decide

theorem wit_Base64IsInjective : base64 [0x4D, 0x61] = base64 [0x4D, 0x61] := rfl

theorem wit_EncodeWritesTheTextFrame :
    let s := withInput ref .opened (List.replicate 125 0x41)
    (4096 < (4097 : Word).toNat ∧ ({ busy with inLen := 4097 } : State).cfg.bufCap = 4096) ∧
    ((126 : Word).toNat ≤ busy.cfg.bufCap ∧ 125 < (126 : Word).toNat) ∧
    s.inLen.toNat ≤ s.cfg.bufCap ∧ s.inLen.toNat ≤ 125 ∧ s.InputIs (List.replicate 125 0x41) ∧
    (withInput ref .opened []).InputIs [] :=
  ⟨by decide, by decide, by decide +kernel, by decide +kernel, withInput_inputIs _ _ (by decide +kernel),
    withInput_inputIs _ _ (by decide)⟩

theorem wit_EncodeLengthInvariant :
    ∃ t, exec .encode (withInput ref .opened helloText) = .next t ∧ t.status = .ok :=
  ⟨_, rfl, by decide +kernel⟩

theorem wit_TextOutEmitsHeaderAndPayload :
    125 < (126 : BitVec 7).toNat ∧ (125 : BitVec 7).toNat ≤ 125 ∧
    (List.replicate 125 (0x41 : Byte)).length = (125 : BitVec 7).toNat ∧
    (∀ i, i < (125 : BitVec 7).toNat → Memory.read (withInput ref .opened (List.replicate 125 0x41)).inBuf i =
      (List.replicate 125 (0x41 : Byte))[i]?) := by
  refine ⟨by decide, by decide, by decide +kernel, fun i hi => ?_⟩
  exact (withInput_inputIs ref .opened (by decide +kernel)).2 i (by simpa using hi)

theorem wit_ShortChunkIsTruncatedUnread :
    (withInput ref .opened []).inLen.toNat < 6 ∧
    (withInput ref .opened [0x88, 0x80, 0, 0, 0]).inLen.toNat ≤ ref.bufCap ∧
    (withInput ref .opened [0x88, 0x80, 0, 0, 0]).inLen.toNat < 6 ∧
    (withInput ref .opened [0x88, 0x80, 0, 0, 0]).session = .opened := by decide

theorem wit_CloseFrameGivesCloseSignal :
    let s := withInput ref .opened closeFrame
    s.inLen.toNat ≤ s.cfg.bufCap ∧ 6 ≤ s.inLen.toNat ∧ (0x88 : Byte).toNat % 16 = 8 ∧
    Memory.read s.inBuf 0 = some 0x88 ∧ s.session = .opened := by decide

theorem wit_OtherOpcodesAreIgnored :
    let s := withInput ref .opened [0x8F, 0, 0, 0, 0, 0]
    s.inLen.toNat ≤ s.cfg.bufCap ∧ 6 ≤ s.inLen.toNat ∧ (0x8F : Byte).toNat % 16 ≠ 1 ∧ (0x8F : Byte).toNat % 16 ≠ 8 ∧
    Memory.read s.inBuf 0 = some 0x8F ∧ s.session = .opened := by decide

theorem wit_HighBitsOfByte0NeverMatter :
    Memory.read busy.inBuf 0 = some 0x81 ∧ (0x81 : Byte).toNat % 16 = (0x71 : Byte).toNat % 16 ∧
    busy.inLen.toNat ≤ busy.cfg.bufCap ∧ 6 ≤ busy.inLen.toNat ∧ (∃ t, exec .decode busy = .next t ∧ t.status = .ok) ∧
    ∃ f, exec .decode { busy with inLen := 12 } = .fault f ∨ exec .decode { busy with inBuf := [(0, 0x81)] } = .fault f :=
  ⟨by decide, by decide, by decide, by decide, ⟨_, rfl, by decide +kernel⟩, _, .inr rfl⟩

theorem wit_MaskBitIsCheckedOnlyUnderCheckMask :
    let s := withInput ref .opened [0x81, 0x7F, 1, 2, 3, 4]
    let u := withInput noMask .opened [0x81, 0x00, 1, 2, 3, 4]
    (s.inLen.toNat ≤ s.cfg.bufCap ∧ 6 ≤ s.inLen.toNat ∧ Memory.read s.inBuf 1 = some 0x7F ∧ s.cfg.checkMask = true ∧
      (0x7F : Byte).toNat < 128 ∧ Memory.read s.inBuf 0 = some 0x81 ∧ (0x81 : Byte).toNat % 16 = 1 ∧
      s.session = .opened) ∧
    (u.inLen.toNat ≤ u.cfg.bufCap ∧ 6 ≤ u.inLen.toNat ∧ Memory.read u.inBuf 1 = some 0x00 ∧
      u.cfg.checkMask = false) ∧
    (∃ t, exec .feed u = .next t ∧ t.status = .ok) ∧ (∃ t, exec .decode u = .next t ∧ t.status = .ok) ∧
    (∃ t, exec (.text true 0) u = .next t ∧ t.status = .ok) ∧
    ∃ f, exec (.text true 0) { u with inBuf := [(1, 0x00)] } = .fault f :=
  ⟨by decide, by decide, ⟨_, rfl, by decide +kernel⟩, ⟨_, rfl, by decide +kernel⟩, ⟨_, rfl, by decide +kernel⟩, _, rfl⟩

/-- LEN7 = 125 in RFC, and LEN7 = 127 in LITERAL, with a byte behind the frame. -/
theorem wit_TextFrameWithOneByteLength :
    (withInput ref .opened ([0x81, 0xFD, 1, 2, 3, 4] ++ List.replicate 125 0x20 ++ [0xAA])).InputIs
      ([0x81, 0xFD, 1, 2, 3, 4] ++ List.replicate 125 0x20 ++ [0xAA]) ∧
    (withInput literal .opened ([0x81, 0xFF, 1, 2, 3, 4] ++ List.replicate 127 0x20 ++ [])).InputIs
      ([0x81, 0xFF, 1, 2, 3, 4] ++ List.replicate 127 0x20 ++ []) ∧
    (withInput ref .opened ([0x81, 0xFD, 1, 2, 3, 4] ++ List.replicate 125 0x20 ++ [0xAA])).inLen.toNat ≤ 4096 ∧
    (0x81 : Byte).toNat % 16 = 1 ∧ 128 ≤ (0xFD : Byte).toNat ∧ (0xFD : Byte).toNat % 128 ≤ 125 ∧
    literal.lenMode = .literal ∧ (List.replicate 125 (0x20 : Byte)).length = (0xFD : Byte).toNat % 128 ∧
    (List.replicate 127 (0x20 : Byte)).length = (0xFF : Byte).toNat % 128 :=
  ⟨withInput_inputIs _ _ (by decide +kernel), withInput_inputIs _ _ (by decide +kernel), by decide +kernel, by decide,
    by decide, by decide, by decide, by decide +kernel, by decide +kernel⟩

theorem wit_TextFrameWith16BitLength :
    let bs : List Byte := [0x81, 0xFE, 0x00, 0x03, 1, 2, 3, 4] ++ [0x60, 0x60, 0x60] ++ []
    let s := withInput ref .opened bs
    s.InputIs bs ∧ s.inLen.toNat ≤ s.cfg.bufCap ∧ (0x81 : Byte).toNat % 16 = 1 ∧ 128 ≤ (0xFE : Byte).toNat ∧
    s.cfg.lenMode = .rfc ∧ (0xFE : Byte).toNat % 128 = 126 ∧
    ([0x60, 0x60, 0x60] : List Byte).length = (0x00 : Byte).toNat * 256 + (0x03 : Byte).toNat :=
  ⟨withInput_inputIs _ _ (by decide), by decide, by decide, by decide, by decide, by decide, by decide⟩

theorem wit_TextFrameWith64BitLength :
    let ext : List Byte := [0, 0, 0, 0, 0, 0, 0, 3]
    let bs : List Byte := [0x81, 0xFF] ++ ext ++ [1, 2, 3, 4] ++ [0x79, 0x7B, 0x79] ++ []
    let s := withInput ref .opened bs
    s.InputIs bs ∧ s.inLen.toNat ≤ s.cfg.bufCap ∧ (0x81 : Byte).toNat % 16 = 1 ∧ 128 ≤ (0xFF : Byte).toNat ∧
    s.cfg.lenMode = .rfc ∧ (0xFF : Byte).toNat % 128 = 127 ∧ ext.length = 8 ∧
    ([0x79, 0x7B, 0x79] : List Byte).length =
      ((List.range 8).map fun j => (ext.getD j 0).toNat * 2 ^ (8 * (7 - j))).sum :=
  ⟨withInput_inputIs _ _ (by decide), by decide, by decide, by decide, by decide, by decide, by decide, by simp [List.range_succ]⟩

/-- 7 bytes for the 16-bit form, 13 for the 64-bit form. -/
theorem wit_ShortExtendedHeaderIsTruncated :
    let s := withInput ref .opened [0x81, 0xFE, 0, 5, 1, 2, 3]
    let u := withInput ref .opened [0x81, 0xFF, 0, 0, 0, 0, 0, 0, 0, 0, 0, 0, 0]
    (s.inLen.toNat ≤ s.cfg.bufCap ∧ 6 ≤ s.inLen.toNat ∧ Memory.read s.inBuf 0 = some 0x81 ∧
      Memory.read s.inBuf 1 = some 0xFE ∧ 128 ≤ (0xFE : Byte).toNat ∧ s.cfg.lenMode = .rfc ∧
      (0xFE : Byte).toNat % 128 = 126 ∧ s.inLen.toNat < 8) ∧
    (u.inLen.toNat ≤ u.cfg.bufCap ∧ Memory.read u.inBuf 1 = some 0xFF ∧ (0xFF : Byte).toNat % 128 = 127 ∧
      u.inLen.toNat < 14) := by decide

/-- One payload byte missing in each of the three forms. -/
theorem wit_PayloadBeyondTheChunkIsTruncated :
    (let bs : List Byte := [0x81, 0x81] ++ [] ++ [1, 2, 3, 4] ++ []
     (withInput ref .opened bs).InputIs bs ∧ (withInput ref .opened bs).inLen.toNat ≤ ref.bufCap ∧
     128 ≤ (0x81 : Byte).toNat ∧ (0x81 : Byte).toNat % 128 ≤ 125 ∧ ([] : List Byte).length < (0x81 : Byte).toNat % 128) ∧
    (let bs : List Byte := [0x81, 0xFE] ++ [0, 1] ++ [1, 2, 3, 4] ++ []
     (withInput ref .opened bs).InputIs bs ∧ ref.lenMode = .rfc ∧ (0xFE : Byte).toNat % 128 = 126 ∧
     ([] : List Byte).length < (([0, 1] : List Byte).getD 0 0).toNat * 256 + (([0, 1] : List Byte).getD 1 0).toNat) ∧
    (let ext : List Byte := [0x80, 0, 0, 0, 0, 0, 0, 0]
     let bs : List Byte := [0x81, 0xFF] ++ ext ++ [1, 2, 3, 4] ++ [0x61]
     (withInput ref .opened bs).InputIs bs ∧ (0xFF : Byte).toNat % 128 = 127 ∧ ext.length = 8 ∧
     ([0x61] : List Byte).length < ((List.range 8).map fun j => (ext.getD j 0).toNat * 2 ^ (8 * (7 - j))).sum) :=
  ⟨⟨withInput_inputIs _ _ (by decide), by decide, by decide, by decide, by decide⟩,
    ⟨withInput_inputIs _ _ (by decide), by decide, by decide, by decide⟩,
    ⟨withInput_inputIs _ _ (by decide), by decide, by decide, by simp [List.range_succ]⟩⟩

theorem wit_DecodedOutputIsUnmaskedBytewise : ∃ t, exec .decode busy = .next t ∧ t.status = .ok :=
  ⟨_, rfl, by decide +kernel⟩

theorem wit_MaskedFrameDecodesToItsPayload :
    let bs : List Byte := [0x81, 0x80 ||| BitVec.ofNat 8 helloText.length, 1, 2, 3, 4] ++ maskBytes 1 2 3 4 helloText
    helloText.length ≤ 125 ∧ (withInput ref .handshaking bs).InputIs bs ∧
    (withInput ref .handshaking bs).inLen.toNat ≤ ref.bufCap :=
  ⟨by decide, withInput_inputIs _ _ (by decide +kernel), by decide +kernel⟩

/-- The first byte, the last byte of the input, and the ends of TEXT_OUT's lengths. -/
theorem wit_UnwrittenInputStopsTheCommand :
    let s : State := { withInput ref .handshaking helloText with inLen := 6 }
    s.firstUnwritten 5 ∧ s.inLen.toNat ≤ s.cfg.bufCap ∧ 5 < s.inLen.toNat ∧ s.inLen.toNat ≤ 125 ∧
    s.session = .handshaking ∧ ({ State.reset with inLen := 1 } : State).firstUnwritten 0 ∧
    (6 : BitVec 7).toNat ≤ 125 ∧ 5 < (6 : BitVec 7).toNat ∧ (125 : BitVec 7).toNat ≤ 125 :=
  ⟨by unfold State.firstUnwritten; decide, by decide, by decide, by decide, by decide,
    by unfold State.firstUnwritten; decide, by decide, by decide, by decide⟩

/-- An unwritten byte 0; byte 1; the first and last header byte after it, in the 64-bit form; and the
first and last payload byte, in the one-byte form. -/
theorem wit_UnwrittenChunkByteStopsTheDecode :
    let u (bs : List Byte) (n : Word) : State := { withInput ref .opened bs with inLen := n }
    (u [] 6).firstUnwritten 0 ∧ (u [0x81] 6).firstUnwritten 1 ∧
    (u [0x81, 0xFF] 14).firstUnwritten 2 ∧
    (u [0x81, 0xFF, 0, 0, 0, 0, 0, 0, 0, 0, 1, 2, 3] 14).firstUnwritten 13 ∧ payloadOffset .rfc 0xFF = 14 ∧
    (u [0x81, 0x82, 1, 2, 3, 4] 8).firstUnwritten 6 ∧ (u [0x81, 0x82, 1, 2, 3, 4, 5] 8).firstUnwritten 7 ∧
    payloadOffset .rfc 0x82 + textLength 0x82 [] = 8 ∧ 128 ≤ (0x82 : Byte).toNat ∧ (0x81 : Byte).toNat % 16 = 1 ∧
    Memory.read (u [0x81, 0x82, 1, 2, 3, 4] 8).inBuf 1 = some 0x82 ∧ (u [] 6).cfg.bufCap = 4096 :=
  ⟨by unfold State.firstUnwritten; decide, by unfold State.firstUnwritten; decide,
    by unfold State.firstUnwritten; decide, by unfold State.firstUnwritten; decide, by decide,
    by unfold State.firstUnwritten; decide, by unfold State.firstUnwritten; decide, by decide, by decide, by decide,
    by decide, by decide⟩

theorem wit_EveryWrittenChunkDecodesToOneOfFiveResults :
    busy.inLen.toNat ≤ busy.cfg.bufCap ∧ busy.inputWritten = true ∧ busy.session = .opened := by decide +kernel

theorem wit_FeedIsDecodeWithTheSessionTransition :
    State.reset.session ≠ .opened ∧ busy.session = .opened ∧ busy.cfg.bufCap < (4097 : Word).toNat ∧
    busy.inLen.toNat ≤ busy.cfg.bufCap ∧ busy.inputWritten = true := by decide +kernel

theorem wit_UpgradeOpensTheSession :
    busy.session ≠ .handshaking ∧ (withInput ref .handshaking sampleKey).session = .handshaking ∧
    ref.bufCap < (4097 : Word).toNat ∧ (withInput ref .handshaking sampleKey).inLen.toNat ≤ ref.bufCap ∧
    (withInput ref .handshaking sampleKey).InputIs sampleKey :=
  ⟨by decide, by decide, by decide, by decide +kernel, withInput_inputIs _ _ (by decide +kernel)⟩

theorem wit_UpgradeOutputLayout :
    ref.wf = true ∧ (withInput ref .handshaking []).InputIs [] ∧
    ∃ t, exec (.upgrade true) (withInput ref .handshaking []) = .next t ∧ t.status = .ok ∧ 27 < 28 ∧
      4 < ref.greeting.length :=
  ⟨by decide, withInput_inputIs _ _ (by decide), _, rfl, rfl, by decide, by decide⟩

/-- One state and access for each transition of R200, and one access that moves nothing. -/
theorem wit_SessionTransitions :
    (∃ t, step (withAccess (withInput ref .handshaking []) (.write 0 4 0x104)) = .next t ∧ t.status = .ok) ∧
    (∃ t, step (withAccess (withInput ref .opened closeFrame) (.write 0 4 5)) = .next t ∧ t.status = .closeSignal) ∧
    (∃ t, step (withAccess (withInput ref .opened []) (.write 0 4 5)) = .next t ∧ t.status = .truncatedFrame) ∧
    (∃ t, step (withAccess busy (.write 0 4 6)) = .next t ∧ t.status = .ok) ∧
    (∃ t, step (withAccess busy .reset) = .next t ∧ t.status = .idle) ∧
    (∃ t, step (withAccess busy (.read 8 4)) = .next t ∧ t.readData = 1) :=
  ⟨⟨_, rfl, rfl⟩, ⟨_, rfl, by decide +kernel⟩, ⟨_, rfl, by decide +kernel⟩, ⟨_, rfl, by decide +kernel⟩,
    ⟨_, rfl, by decide +kernel⟩, ⟨_, rfl, by decide +kernel⟩⟩

theorem wit_ClosedIsTerminalUntilReset :
    let s : State := { withInput ref .closed [] with program := [cmd 1, cmd 5, rd .session] }
    s.session = .closed ∧ HostAccess.reset ∉ s.program ∧ (∃ t, core.run 3 s = .next t) ∧
    s.inLen.toNat ≤ s.cfg.bufCap ∧ s.inputWritten = true :=
  ⟨rfl, by decide, ⟨_, rfl⟩, by decide, by decide⟩

theorem wit_InstancesAreIsolated :
    (∃ sys', System.stepAt [State.reset, busy, State.reset] 1 = .next sys') ∧
    ([busy, busy] : System)[1]? = ([State.reset, busy, State.reset] : System)[1]? ∧
    (∃ sys', System.stepAt [State.reset] 1 = .next sys') :=
  ⟨⟨_, rfl⟩, rfl, ⟨_, rfl⟩⟩

end Sys2Proof.Tests
end

section
/-! PROOF. Every command reads its input from `IN[0..IN_LEN)` only, and only after the length check (R57): one
noninterference lemma per command, from the lemmas of Laws/Input.lean, and O25 from them. -/

namespace Sys2Proof.Machine

open Sys2Proof

/-- `m` holds the same bytes as IN_BUF of `s` wherever a command may read: on `IN[0..IN_LEN)`, and nowhere if
IN_LEN exceeds BUF_CAP (R57, R73). -/
def AgreesOnInput (s : State) (m : Memory) : Prop :=
  s.inLen.toNat ≤ s.cfg.bufCap → ∀ j, j < s.inLen.toNat → Memory.read m j = Memory.read s.inBuf j

theorem SameButInput.emitTextFrame {s : State} {m : Memory} {l : Nat}
    (h : ∀ j, j < l → Memory.read m j = Memory.read s.inBuf j) :
    SameButInput m (Machine.emitTextFrame s l) (Machine.emitTextFrame { s with inBuf := m } l) := by
  unfold Machine.emitTextFrame
  by_cases hl : 125 < l
  · rw [if_pos hl, if_pos hl]; exact .next
  · rw [if_neg hl, if_neg hl]
    exact .withRead (readInSlice_update l 0 fun j _ hj => h j (by omega)) fun p => .finishOutput s m _ _

theorem SameButInput.finishUpgrade (s : State) (m : Memory) (bs : List Byte) (aux : Word) :
    SameButInput m (.next { s.finishOutput bs aux with session := .opened })
      (.next { ({ s with inBuf := m } : State).finishOutput bs aux with session := .opened }) :=
  .next

section
variable {s : State} {m : Memory}

theorem readInput_update (h : ∀ j, j < s.inLen.toNat → Memory.read m j = Memory.read s.inBuf j) :
    ({ s with inBuf := m } : State).readInput = s.readInput :=
  readInSlice_update s.inLen.toNat 0 fun j _ hj => h j (by omega)

theorem execSign_update (h : AgreesOnInput s m) :
    SameButInput m (execSign s) (execSign { s with inBuf := m }) :=
  .checkLength fun hl => .withRead (readInput_update (h hl)) fun _ => .finishOutput s m _ _

theorem execEncode_update (h : AgreesOnInput s m) :
    SameButInput m (execEncode s) (execEncode { s with inBuf := m }) :=
  .checkLength fun hl => .emitTextFrame (h hl)

theorem execUpgrade_update {kp : Bool} (h : AgreesOnInput s m) :
    SameButInput m (execUpgrade kp s) (execUpgrade kp { s with inBuf := m }) := by
  unfold execUpgrade
  by_cases hs : s.session ≠ .handshaking
  · rw [if_pos hs, if_pos hs]; exact .next
  · rw [if_neg hs, if_neg hs]
    cases kp with
    | false => exact .next
    | true => exact .checkLength fun hl => .withRead (readInput_update (h hl)) fun _ => .finishUpgrade s m _ _

/-- The decode that DECODE and FEED share; a byte 0 that was never written makes both decodes stop there (R274). -/
theorem decodeChunk_update_of_agrees (h : AgreesOnInput s m) :
    SameButInput m (decodeChunk s) (decodeChunk { s with inBuf := m }) := by
  refine decodeChunk_update (fun hl h6 => ?_) fun hl j _ hj => h hl j hj
  have h0 : Memory.read m 0 = Memory.read s.inBuf 0 := h hl 0 (by omega)
  cases hb : Memory.read s.inBuf 0 with
  | none => exact .inl ⟨h0.trans hb, rfl⟩
  | some b => exact .inr ⟨b, b, rfl, h0.trans hb, rfl⟩

/-- Replacing the bytes of IN_BUF that no command may read changes nothing but those bytes. -/
theorem exec_update {i : Instr} (hi : isCommand i = true) (h : AgreesOnInput s m) :
    SameButInput m (exec i s) (exec i { s with inBuf := m }) := by
  cases i with
  | nop | disconnect | reservedCmd _ _ _ _ => exact .next
  | sign => exact execSign_update h
  | encode => exact execEncode_update h
  | decode => exact decodeChunk_update_of_agrees h
  | upgrade kp => exact execUpgrade_update h
  | feed => exact execFeed_update (decodeChunk_update_of_agrees h)
  | _ => cases hi

end

/-- Settles O25: with IN_LEN beyond BUF_CAP the two buffers need not agree anywhere. -/
theorem commandsReadOnlyTheInput : Obligations.CommandsReadOnlyTheInput := by
  intro i s m hi h
  refine exec_update hi fun hl => ?_
  rcases h with hlong | hagree
  · omega
  · exact hagree

end Sys2Proof.Machine
end

section
/-! PROOF. What the host port does with an allowed access, and that it takes no other (R51 to R55): O13, O10. -/

namespace Sys2Proof.Machine

open Sys2Proof

/-! ### Disallowed accesses (R53) -/

theorem accessAllowed_register {addr : Word} {n : Nat} (h : addr.toNat < 0x1000) :
    accessAllowed addr n = true ↔ n = 4 ∧ addr.toNat % 4 = 0 := by
  have hr : regionOf addr = .register addr.toNat := regionOf_register_iff.2 ⟨rfl, h⟩
  simp [accessAllowed, hr]

theorem accessAllowed_buffer {addr : Word} {n : Nat} (h : 0x10000 ≤ addr.toNat) (h' : addr.toNat < 0x30000) :
    accessAllowed addr n = true ↔ n = 1 := by
  by_cases hin : addr.toNat < 0x20000
  · have hr : regionOf addr = .inWindow (addr.toNat - 0x10000) := regionOf_inWindow_iff.2 (by omega)
    simp [accessAllowed, hr]
  · have hr : regionOf addr = .outWindow (addr.toNat - 0x20000) := regionOf_outWindow_iff.2 (by omega)
    simp [accessAllowed, hr]

theorem hostAccess_not_allowed {addr : Word} {n : Nat} (h : accessAllowed addr n ≠ true)
    (run : Word → State → StepResult) (s : State) (v : Word) :
    hostAccess run (.read addr n) s = .fault (.hostProtocol addr n) ∧
    hostAccess run (.write addr n v) s = .fault (.hostProtocol addr n) :=
  ⟨if_neg h, if_neg h⟩

/-- Settles O13: R51 allows neither access, whether it is a read or a write. -/
theorem disallowedAccessIsStuck : Obligations.DisallowedAccessIsStuck := by
  intro s addr n v rest hp hbad
  have hna : accessAllowed addr n ≠ true := by
    rcases hbad with ⟨hreg, hbad⟩ | ⟨hlo, hhi, hn⟩
    · rw [Ne, accessAllowed_register hreg]; omega
    · rw [Ne, accessAllowed_buffer hlo hhi]; omega
  obtain ⟨hread, hwrite⟩ := hostAccess_not_allowed hna runCommand { s with program := rest } v
  rcases hp with hp | hp
  · rw [step_cons hp, hread]
  · rw [step_cons hp, hwrite]

/-! ### Allowed accesses (R51, R52, R55) -/

theorem step_read {s : State} {addr : Word} {n : Nat} {rest : List HostAccess}
    (hp : s.program = .read addr n :: rest) (ha : accessAllowed addr n = true) :
    step s = .next { s with program := rest, readData := s.hostRead addr } :=
  (step_cons hp).trans (if_pos ha)

theorem step_write {s : State} {addr v : Word} {n : Nat} {rest : List HostAccess}
    (hp : s.program = .write addr n v :: rest) (ha : accessAllowed addr n = true) :
    step s = hostWrite runCommand addr v { s with program := rest } :=
  (step_cons hp).trans (if_pos ha)

/-- What a read returns does not depend on the host's side of the port. -/
theorem hostRead_hostSide (s : State) (addr : Word) (p : List HostAccess) (v : Word) :
    ({ s with program := p, readData := v } : State).hostRead addr = s.hostRead addr := rfl

theorem accessAllowed_inAddr {i : Nat} (h : i < 0x10000) : accessAllowed (inAddr i) 1 = true := by
  simp [accessAllowed, regionOf_inAddr h]

theorem hostWrite_inAddr {run : Word → State → StepResult} {s : State} {i : Nat} {v : Word}
    (hi : i < s.cfg.bufCap) (hw : i < 0x10000) :
    hostWrite run (inAddr i) v s = .next { s with inBuf := Memory.write s.inBuf i (v.setWidth 8) } := by
  simp only [hostWrite, regionOf_inAddr hw, if_pos hi]

theorem offset_of_regAt {off : Nat} {r : Reg} (h : regAt off = some r) : r.offset = off := by
  unfold regAt at h
  split at h <;> cases h <;> rfl

/-- A write to any register but CMD and IN_LEN, or to an unassigned offset, is ignored (R22, R52). -/
theorem hostWrite_register_ignored {run : Word → State → StepResult} {s : State} {addr v : Word} {off : Nat}
    (ho : regionOf addr = .register off) (hcmd : off ≠ 0) (hlen : off ≠ 0xC) :
    hostWrite run addr v s = .next s := by
  simp only [hostWrite, ho]
  split
  case h_1 hr => exact absurd (offset_of_regAt hr).symm hcmd
  case h_2 hr => exact absurd (offset_of_regAt hr).symm hlen
  all_goals rfl

/-- A write that is to none of CMD, IN_LEN and the bytes of IN_BUF is ignored. -/
theorem hostWrite_ignored {run : Word → State → StepResult} {s : State} {addr v : Word}
    (hcmd : addr ≠ 0) (hlen : addr ≠ 0xC)
    (hbuf : addr.toNat < 0x10000 ∨ 0x10000 + s.cfg.bufCap ≤ addr.toNat) :
    hostWrite run addr v s = .next s := by
  cases hr : regionOf addr with
  | register off =>
    obtain ⟨rfl, -⟩ := regionOf_register_iff.1 hr
    exact hostWrite_register_ignored hr (fun h => hcmd (BitVec.eq_of_toNat_eq h))
      (fun h => hlen (BitVec.eq_of_toNat_eq h))
  | inWindow i =>
    obtain ⟨hi, -⟩ := regionOf_inWindow_iff.1 hr
    simp only [hostWrite, hr, if_neg (show ¬ i < s.cfg.bufCap by omega)]
  | outWindow i => simp only [hostWrite, hr]
  | outside => simp only [hostWrite, hr]

/-- Settles O10, one allowed access after the other. -/
theorem onlyCmdWritesHaveSideEffects : Obligations.OnlyCmdWritesHaveSideEffects := by
  intro s a rest hp hwf
  obtain ⟨-, -, -, hcap⟩ := Config.wf_bounds hwf
  refine ⟨?read, ?cmd, ?inLen, ?inByte, ?ignored⟩
  case read =>
    rintro addr n rfl ha
    exact ⟨step_read hp ha, hostRead_hostSide s addr⟩
  case cmd =>
    rintro w rfl
    exact step_cons hp
  case inLen =>
    rintro v rfl
    exact step_cons hp
  case inByte =>
    rintro i v hi rfl
    have hw : i < 0x10000 := by omega
    exact (step_write hp (accessAllowed_inAddr hw)).trans (hostWrite_inAddr hi hw)
  case ignored =>
    rintro addr n v rfl ha hcmd hlen hbuf
    exact (step_write hp ha).trans (hostWrite_ignored hcmd hlen hbuf)

end Sys2Proof.Machine
end

section
/-! PROOF. What a word written to CMD does: the instruction it decodes to, and the pre-checks of that instruction in
the order of R74 (R72, R73): O4. -/

namespace Sys2Proof.Machine

open Sys2Proof

/-- A CMD write runs the instruction of its word (R25, R74). -/
theorem step_cmd {s : State} {w : Word} {rest : List HostAccess} {i : Instr}
    (hp : s.program = .write 0 4 w :: rest) (hw : decodeCommandWord w = i) :
    step s = exec i { s with program := rest } := by
  rw [step_cons hp, hostAccess_cmd, runCommand, hw]

/-! ### The pre-checks of each command (R72 to R74) -/

section
variable {s : State}

theorem execUpgrade_not_handshaking {kp : Bool} (h : s.session ≠ .handshaking) :
    execUpgrade kp s = .next (s.failed .badState) := if_pos h

theorem execUpgrade_no_key (h : s.session = .handshaking) :
    execUpgrade false s = .next (s.failed .missingKey) := if_neg (not_not.2 h)

/-- With a key, in Handshaking, UPGRADE comes to its length check, the last of its pre-checks. -/
theorem execUpgrade_key_long (h : s.session = .handshaking) (hl : s.cfg.bufCap < s.inLen.toNat) :
    execUpgrade true s = .next (s.failed .badLength) :=
  (if_neg (not_not.2 h)).trans (checkLength_long hl)

theorem decodeChunk_long (hl : s.cfg.bufCap < s.inLen.toNat) :
    decodeChunk s = .next (s.failed .badLength) := checkLength_long hl

/-- BAD_LENGTH does not move the session of a FEED (R215). -/
theorem execFeed_long (h : s.session = .opened) (hl : s.cfg.bufCap < s.inLen.toNat) :
    execFeed s = .next (s.failed .badLength) := by
  rw [execFeed_opened h, decodeChunk_long hl]
  exact congrArg Host.Outcome.next (closeOnResult_of_not_closes rfl)

/-- A command that reads IN_BUF and has no earlier result ends with BAD_LENGTH if IN_LEN exceeds BUF_CAP (R73). -/
theorem exec_badLength {i : Instr}
    (hi : i = .sign ∨ i = .encode ∨ i = .decode ∨ (i = .upgrade true ∧ s.session = .handshaking) ∨
      (i = .feed ∧ s.session = .opened)) (hl : s.cfg.bufCap < s.inLen.toNat) :
    exec i s = .next (s.failed .badLength) := by
  rcases hi with rfl | rfl | rfl | ⟨rfl, hs⟩ | ⟨rfl, hs⟩
  · exact checkLength_long hl
  · exact checkLength_long hl
  · exact decodeChunk_long hl
  · exact execUpgrade_key_long hs hl
  · exact execFeed_long hs hl

end

/-- Settles O4: each word decodes to its instruction, whose pre-check the clause names. -/
theorem cmdWritePreChecksInOrder : Obligations.CmdWritePreChecksInOrder := by
  intro s w rest hp
  refine ⟨?reserved, ?nop, ?badState, ?feedBadState, ?missingKey, ?badLength, ?sign, ?encode, ?decode,
    ?upgrade, ?feed, ?disconnect⟩
  case reserved => exact fun hr => step_cmd hp (decodeCommandWord_reserved hr)
  case nop => rintro rfl; exact step_cmd hp (i := .nop) rfl
  case badState =>
    rintro (rfl | rfl) hs
    · exact (step_cmd hp (i := .upgrade false) rfl).trans (execUpgrade_not_handshaking hs)
    · exact (step_cmd hp (i := .upgrade true) rfl).trans (execUpgrade_not_handshaking hs)
  case feedBadState =>
    rintro rfl hs
    exact (step_cmd hp (i := .feed) rfl).trans (execFeed_not_opened hs)
  case missingKey =>
    rintro rfl hs
    exact (step_cmd hp (i := .upgrade false) rfl).trans (execUpgrade_no_key hs)
  case badLength =>
    intro hw hl
    rw [step_cmd hp rfl]
    refine exec_badLength ?_ hl
    rcases hw with rfl | rfl | rfl | ⟨rfl, hs⟩ | ⟨rfl, hs⟩
    · exact .inl rfl
    · exact .inr (.inl rfl)
    · exact .inr (.inr (.inl rfl))
    · exact .inr (.inr (.inr (.inl ⟨rfl, hs⟩)))
    · exact .inr (.inr (.inr (.inr ⟨rfl, hs⟩)))
  case sign | encode | decode | upgrade | feed | disconnect => rintro rfl; exact step_cmd hp rfl

end Sys2Proof.Machine
end

section
/-! PROOF. SIGN writes the accept token of its input (R107), and the signer meets the source's handshake vector
(R108): O30, O31. -/

namespace Sys2Proof.Machine

open Sys2Proof

theorem guid_eq_asciiBytes : guid = asciiBytes "258EAFA5-E914-47DA-95CA-C5AB0DC85B11" := by decide +kernel

/-- On an input that fits the buffer and is written, SIGN ends with the token of that input (R107). -/
theorem execSign_of_input {s : State} {key : List Byte} (hl : s.inLen.toNat ≤ s.cfg.bufCap)
    (hi : s.InputIs key) : execSign s = .next (s.finishOutput (acceptToken key) 0) := by
  unfold execSign
  rw [checkLength_fits hl, readInput_ok_iff.2 hi]
  rfl

/-- An OK output of the token counts 28 bytes (R107), as every token has that length. -/
theorem finishOutput_acceptToken (s : State) (key : List Byte) (aux : Word) :
    s.finishOutput (acceptToken key) aux =
      { s with
        status := .ok
        outBuf := Memory.writeBytes s.outBuf 0 (acceptToken key)
        outLen := 28
        auxLen := aux } := by
  unfold State.finishOutput
  rw [acceptToken_length]
  rfl

/-- Settles O30: the length check decides between BAD_LENGTH and the token. -/
theorem signWritesTheAcceptToken : Obligations.SignWritesTheAcceptToken := by
  refine ⟨rfl, fun s key => ⟨exec_badLength (.inl rfl), fun hl hi => ?_⟩⟩
  rw [← guid_eq_asciiBytes]
  exact (execSign_of_input hl hi).trans (congrArg Host.Outcome.next (finishOutput_acceptToken s key 0))

/-- The digest of the handshake vector of R108. -/
theorem sha1_handshakeVector : sha1 (asciiBytes "dGhlIHNhbXBsZSBub25jZQ==" ++ guid) =
    [0xb3, 0x7a, 0x4f, 0x2c, 0xc0, 0x62, 0x4f, 0x16, 0x90, 0xf6, 0x46, 0x06, 0xcf, 0x38, 0x59, 0x45,
     0xb2, 0xbe, 0xc4, 0xea] := by decide +kernel

/-- Settles O31: the token is base64 of the digest already computed. -/
theorem signerMeetsTheHandshakeVector : Obligations.SignerMeetsTheHandshakeVector := by
  refine ⟨sha1_handshakeVector, ?_⟩
  rw [acceptToken, sha1_handshakeVector]
  decide +kernel

end Sys2Proof.Machine
end

section
/-! PROOF. ENCODE ends in one of three ways (R142), and an OK one leaves the whole frame of its input in OUT_BUF
(R143): O36, O37. -/

namespace Sys2Proof.Machine

open Sys2Proof

/-- Everything ENCODE can answer (R142), its two checks in the order of R243. -/
theorem execEncode_next_iff {s t : State} :
    execEncode s = .next t ↔
      (s.cfg.bufCap < s.inLen.toNat ∧ t = s.failed .badLength) ∨
      (s.inLen.toNat ≤ s.cfg.bufCap ∧ 125 < s.inLen.toNat ∧ t = s.failed .payloadTooLong) ∨
      (s.inLen.toNat ≤ s.cfg.bufCap ∧ s.inLen.toNat ≤ 125 ∧
        ∃ payload, s.InputIs payload ∧ t = s.finishOutput (textFrame payload) 0) := by
  unfold execEncode
  simp only [checkLength_next_iff, emitTextFrame_next_iff, and_or_left, finishError_eq_failed,
    ← readInput_ok_iff, State.readInput]

/-- An OK output of a frame counts two header bytes and the payload (R142). -/
theorem finishOutput_textFrame (s : State) (payload : List Byte) (aux : Word) :
    s.finishOutput (textFrame payload) aux =
      { s with
        status := .ok
        outBuf := Memory.writeBytes s.outBuf 0 (0x81 :: BitVec.ofNat 8 payload.length :: payload)
        outLen := BitVec.ofNat 32 (2 + payload.length)
        auxLen := aux } := by
  unfold State.finishOutput
  rw [textFrame_length]
  rfl

/-- Settles O36: the three results are the three cases of `execEncode_next_iff`. -/
theorem encodeWritesTheTextFrame : Obligations.EncodeWritesTheTextFrame := by
  refine ⟨rfl, fun s payload => ⟨exec_badLength (.inr (.inl rfl)), fun hfit hlong => ?_, fun hfit hshort hi => ?_⟩⟩
  · exact execEncode_next_iff.2 (.inr (.inl ⟨hfit, hlong, rfl⟩))
  · rw [← finishOutput_textFrame]
    exact execEncode_next_iff.2 (.inr (.inr ⟨hfit, hshort, payload, hi, rfl⟩))

/-! ### The frame in OUT_BUF (R143) -/

/-- Byte `j` of a frame written to the start of a buffer is read back at index `j`. -/
theorem Memory.read_writeBytes_textFrame (m : Memory) {payload : List Byte} {j : Nat} (hj : j < 2 + payload.length) :
    Memory.read (Memory.writeBytes m 0 (textFrame payload)) j = (textFrame payload)[j]? := by
  rw [Memory.read_writeBytes_zero, textFrame_length, if_pos hj]

theorem textFrame_getElem?_payload (payload : List Byte) (i : Nat) : (textFrame payload)[2 + i]? = payload[i]? := by
  rw [Nat.add_comm, textFrame, List.getElem?_cons_succ, List.getElem?_cons_succ]

/-- An ENCODE that finishes OK had a written input of at most 125 bytes, and wrote its frame (R142). -/
theorem execEncode_ok {s t : State} (h : execEncode s = .next t) (hok : t.status = .ok) :
    s.inLen.toNat ≤ 125 ∧ ∃ payload, s.InputIs payload ∧ t = s.finishOutput (textFrame payload) 0 := by
  rcases execEncode_next_iff.1 h with ⟨-, rfl⟩ | ⟨-, -, rfl⟩ | ⟨-, hshort, hout⟩
  · cases hok
  · cases hok
  · exact ⟨hshort, hout⟩

/-- Settles O37: OUT_BUF holds the frame, read off byte by byte. -/
theorem encodeLengthInvariant : Obligations.EncodeLengthInvariant := by
  intro s t h hok
  obtain ⟨hshort, payload, ⟨hlen, hbytes⟩, rfl⟩ := execEncode_ok h hok
  rw [hlen] at hshort ⊢
  refine ⟨hshort, ?header, ?length, ?outLen, fun i hi => ?payload⟩
  case header => exact Memory.read_writeBytes_textFrame s.outBuf (by omega)
  case length => exact Memory.read_writeBytes_textFrame s.outBuf (by omega)
  case outLen =>
    rw [State.finishOutput_outLen, textFrame_length, BitVec.toNat_ofNat]
    omega
  case payload =>
    rw [State.finishOutput_outBuf, Memory.read_writeBytes_textFrame s.outBuf (by omega),
      textFrame_getElem?_payload, hbytes i hi]

end Sys2Proof.Machine
end

section
/-! PROOF. A Text frame laid out in a written chunk, under DECODE, TEXT and FEED: its payload decodes (R167, R175,
R177) or lies beyond the chunk (R170): O44, O48, O50. -/

namespace Sys2Proof.Machine

open Sys2Proof

/-! ### FEED, from the decode it shares with DECODE (R215) -/

/-- FEED closes an open session on a result of R200. -/
theorem execFeed_closes {s t : State} (hs : s.session = .opened) (hd : decodeChunk s = .next t)
    (hc : t.status.closesSession = true) : execFeed s = .next { t with session := .closed } := by
  rw [execFeed_opened hs, hd]
  exact congrArg Host.Outcome.next (closeOnResult_of_closes hc)

/-- FEED answers what DECODE does on a result that closes no session. -/
theorem execFeed_stays {s t : State} (hs : s.session = .opened) (hd : decodeChunk s = .next t)
    (hc : t.status.closesSession = false) : execFeed s = .next t := by
  rw [execFeed_opened hs, hd]
  exact congrArg Host.Outcome.next (closeOnResult_of_not_closes hc)

/-! ### The two results of a laid-out frame -/

/-- The two spellings of the state after an OK decode agree (R175). -/
theorem finishDecode_ok (s : State) (k0 k1 k2 k3 : Byte) {len : BitVec 64} {pay : List Byte}
    (h : len.toNat = pay.length) :
    s.finishDecode { res := .ok, opc := 1, len := len, key := ⟨k0, k1, k2, k3⟩, pay := pay } =
      s.decodedText k0 k1 k2 k3 pay := by
  have hlo : len.setWidth 32 = BitVec.ofNat 32 pay.length := BitVec.eq_of_toNat_eq (by simp [h])
  have hlo' : len.extractLsb' 0 32 = BitVec.ofNat 32 pay.length := BitVec.eq_of_toNat_eq (by simp [h])
  have hhi : len.extractLsb' 32 32 = BitVec.ofNat 32 (pay.length / 2 ^ 32) :=
    BitVec.eq_of_toNat_eq (by simp [h, Nat.shiftRight_eq_div_pow])
  unfold State.finishDecode State.decodedText
  simp only [if_true, hlo, hlo', hhi, MaskKey.toWord]

section
variable {s : State} {b0 b1 k0 k1 k2 k3 : Byte} {ext : List Byte}

/-- A payload of which fewer than L bytes lie in the chunk (R170), in whichever length form. -/
theorem decode_payloadBeyondChunk {body : List Byte}
    (hi : s.InputIs ([b0, b1] ++ ext ++ [k0, k1, k2, k3] ++ body)) (hfit : s.inLen.toNat ≤ s.cfg.bufCap)
    (hop : b0.toNat % 16 = 1) (hm : s.cfg.checkMask = true → 128 ≤ b1.toNat)
    (he : ext.length = (lenForm s.cfg.lenMode (len7Field b1)).extBytes) (hlt : body.length < textLength b1 ext) :
    decodeChunk s = .next (s.decodeFailed .truncatedFrame 1) ∧
      ∀ fin rsv, execText fin rsv s = .next (s.decodeFailed .truncatedFrame 1) := by
  obtain ⟨d, hd, hdecode⟩ := decodeFrame_wire hi hfit hop hm rfl he
  rw [length_lenForm he, if_pos hlt] at hd
  rwa [hd, finishDecode_signal _ _ _ (by decide)] at hdecode

/-- A payload of L bytes in the chunk, in whichever length form; the bytes after it are dropped (R167 to R172). -/
theorem decode_payloadInChunk {masked rest : List Byte}
    (hi : s.InputIs ([b0, b1] ++ ext ++ [k0, k1, k2, k3] ++ (masked ++ rest))) (hfit : s.inLen.toNat ≤ s.cfg.bufCap)
    (hop : b0.toNat % 16 = 1) (hm : s.cfg.checkMask = true → 128 ≤ b1.toNat)
    (he : ext.length = (lenForm s.cfg.lenMode (len7Field b1)).extBytes) (hl : masked.length = textLength b1 ext) :
    decodeChunk s = .next (s.decodedText k0 k1 k2 k3 (maskBytes k0 k1 k2 k3 masked)) ∧
      ∀ fin rsv, execText fin rsv s = .next (s.decodedText k0 k1 k2 k3 (maskBytes k0 k1 k2 k3 masked)) := by
  obtain ⟨d, hd, hdecode⟩ := decodeFrame_wire hi hfit hop hm rfl he
  have hlen := (length_lenForm he).trans hl.symm
  rw [hlen, if_neg (by simp), List.take_left, unmask_eq_maskBytes] at hd
  rwa [hd, finishDecode_ok s k0 k1 k2 k3 (hlen.trans (maskBytes_length ..).symm)] at hdecode

end

/-- Settles O44: the one-byte form has no extended-length bytes. -/
theorem textFrameWithOneByteLength : Obligations.TextFrameWithOneByteLength := by
  intro s b0 b1 k0 k1 k2 k3 masked rest fin rsv hi hfit hop hm hform hl
  have hext : ([] : List Byte).length = (lenForm s.cfg.lenMode (len7Field b1)).extBytes := by
    rw [lenForm_short hform]; rfl
  obtain ⟨hdecode, htext⟩ := decode_payloadInChunk hi hfit hop hm hext hl
  exact ⟨hdecode, htext fin rsv, fun hs => execFeed_stays hs hdecode rfl⟩

/-- Settles O48: each form has its extended-length bytes, and they give its L. -/
theorem payloadBeyondTheChunkIsTruncated : Obligations.PayloadBeyondTheChunkIsTruncated := by
  intro s b0 b1 k0 k1 k2 k3 ext body fin rsv len hi hfit hop hm hform hlt
  have hext : ext.length = (lenForm s.cfg.lenMode (len7Field b1)).extBytes ∧ len = textLength b1 ext := by
    rcases hform with ⟨hshort, he, rfl⟩ | ⟨hrfc, h126, he, rfl⟩ | ⟨hrfc, h127, he, rfl⟩
    · rw [lenForm_short hshort, textLength, if_pos (List.length_eq_zero_iff.1 he)]
      exact ⟨he, rfl⟩
    · rw [hrfc, lenForm_ext16 h126, textLength, if_neg (List.ne_nil_of_length_pos (by omega)), he]
      exact ⟨rfl, by simp [List.range_succ]⟩
    · rw [hrfc, lenForm_ext64 h127, textLength, if_neg (List.ne_nil_of_length_pos (by omega)), he]
      exact ⟨rfl, rfl⟩
  obtain ⟨he, rfl⟩ := hext
  obtain ⟨hdecode, htext⟩ := decode_payloadBeyondChunk hi hfit hop hm he hlt
  exact ⟨hdecode, htext fin rsv, fun hs => execFeed_closes hs hdecode rfl⟩

/-- Byte 1 of a masked frame: MASK and LEN7 (R80, R87). -/
theorem maskedByte1_toNat {n : Nat} (h : n < 128) : (0x80 ||| BitVec.ofNat 8 n : Byte).toNat = 128 + n := by
  have hor := Nat.two_pow_add_eq_or_of_lt (i := 7) h 1
  rw [BitVec.toNat_or, BitVec.toNat_ofNat, Nat.mod_eq_of_lt (by omega)]
  exact hor.symm

/-- Settles O50: the frame is of the one-byte form, and masking undoes itself. -/
theorem maskedFrameDecodesToItsPayload : Obligations.MaskedFrameDecodesToItsPayload := by
  intro s m0 m1 m2 m3 payload hle hi hfit
  have hb1 := maskedByte1_toNat (n := payload.length) (by omega)
  obtain ⟨hdecode, -, -⟩ := textFrameWithOneByteLength s 0x81 (0x80 ||| BitVec.ofNat 8 payload.length) m0 m1 m2 m3
    (maskBytes m0 m1 m2 m3 payload) [] false 0 (by rwa [List.append_nil]) hfit rfl (by omega) (by omega)
    (by rw [maskBytes_length]; omega)
  rw [maskBytes_maskBytes] at hdecode
  refine ⟨_, hdecode, rfl, ?outLen, fun i hi => ?payload⟩
  case outLen => exact (BitVec.toNat_ofNat ..).trans (Nat.mod_eq_of_lt (by omega))
  case payload => exact (Memory.read_writeBytes_zero ..).trans (if_pos hi)

end Sys2Proof.Machine
end

section
/-! PROOF. What a decode makes of the length of the chunk and of its byte 0: a chunk below 6 bytes is cut off
unread (R161), and byte 0 counts by its opcode nibble only (R162): O39, O42. -/

namespace Sys2Proof.Machine

open Sys2Proof

theorem withChunk_truncated {s : State} {k : StepResult} (hfit : s.inLen.toNat ≤ s.cfg.bufCap)
    (h6 : s.inLen.toNat < 6) : withChunk s k = .next (s.decodeFailed .truncatedFrame 0) := by
  rw [withChunk_short hfit h6, finishDecode_signal _ _ _ (by decide)]

/-- Every wire instruction checks the length of the chunk before anything else (R161). -/
theorem runFrame_truncated {s : State} (b : Byte) (hfit : s.inLen.toNat ≤ s.cfg.bufCap)
    (h6 : s.inLen.toNat < 6) : runFrame b s = .next (s.decodeFailed .truncatedFrame 0) := by
  by_cases h1 : b.toNat % 16 = 1
  · rw [runFrame_eq_exec, decodeFrameByte_text h1]
    exact withChunk_truncated hfit h6
  · by_cases h8 : b.toNat % 16 = 8
    · rw [runFrame_eq_exec, decodeFrameByte_close h8]
      exact withChunk_truncated hfit h6
    · rw [runFrame_ignored h1 h8]
      exact withChunk_truncated hfit h6

/-- Settles O39: the length check comes before the read of byte 0, and first in each wire instruction. -/
theorem shortChunkIsTruncatedUnread : Obligations.ShortChunkIsTruncatedUnread := by
  intro s hfit h6
  have hdecode : decodeChunk s = .next (s.decodeFailed .truncatedFrame 0) := withChunk_truncated hfit h6
  refine ⟨hdecode, fun hs => execFeed_closes hs hdecode rfl, fun b => ?wire⟩
  exact (runFrame_eq_exec b s).symm.trans (runFrame_truncated b hfit h6)

/-! ### The opcode of a decode (R162) -/

/-- DecodeCore of a Text frame returns the opcode of Text, whatever its result (R165 to R172). -/
theorem decodeText_opc {s : State} {n : Nat} {d : Decoded} (h : decodeText s n = .ok d) : d.opc = 1 := by
  unfold decodeText at h
  cases h1 : s.readIn 1 with
  | error e => rw [h1] at h; cases h
  | ok b1 =>
    simp only [h1, bind, Except.bind] at h
    split at h
    case isTrue => cases h; rfl
    case isFalse =>
      split at h
      case isTrue => cases h; rfl
      case isFalse =>
        split at h
        · cases h
        · rcases decodePayload_ok h with ⟨rfl, -⟩ | ⟨key, masked, -, -, -, rfl⟩ <;> rfl

/-- A wire instruction that gets past the chunk checks leaves its opcode in DEC_OPCODE (R162, R175). -/
theorem runFrame_decOpcode {s t : State} {b : Byte} (hfit : s.inLen.toNat ≤ s.cfg.bufCap)
    (h6 : 6 ≤ s.inLen.toNat) (h : runFrame b s = .next t) : t.decOpcode.toNat = b.toNat % 16 := by
  by_cases h1 : b.toNat % 16 = 1
  · rw [runFrame_eq_exec, decodeFrameByte_text h1] at h
    obtain ⟨d, hd, ht⟩ := withRead_next_iff.1 ((withChunk_fits hfit h6).symm.trans h)
    cases ht
    rw [State.finishDecode_decOpcode, decodeText_opc hd, h1]
    rfl
  · by_cases h8 : b.toNat % 16 = 8
    · rw [runFrame_eq_exec, decodeFrameByte_close h8] at h
      cases (withChunk_fits hfit h6).symm.trans h
      rw [State.finishDecode_decOpcode, h8]
      rfl
    · rw [runFrame_ignored h1 h8] at h
      cases (withChunk_fits hfit h6).symm.trans h
      rw [State.finishDecode_decOpcode]
      exact opcodeNibble_toNat b

/-- Replacing byte 0 by one of the same opcode changes nothing else in a decode's answer (R162). -/
theorem decodeChunk_update_byte0 {s : State} {b b' : Byte} (hb : Memory.read s.inBuf 0 = some b)
    (hop : b.toNat % 16 = b'.toNat % 16) :
    SameButInput (Memory.write s.inBuf 0 b') (decodeChunk s)
      (decodeChunk { s with inBuf := Memory.write s.inBuf 0 b' }) := by
  have hnibble : opcodeNibble b' = opcodeNibble b :=
    BitVec.eq_of_toNat_eq (by rw [opcodeNibble_toNat, opcodeNibble_toNat, hop])
  refine decodeChunk_update (fun _ _ => .inr ⟨b, b', hb, Memory.read_write_same .., hnibble⟩) fun _ j hj _ => ?_
  exact Memory.read_write_other _ _ (by omega)

/-- Settles O42: the answers differ in byte 0 only, and DEC_OPCODE is the nibble. -/
theorem highBitsOfByte0NeverMatter : Obligations.HighBitsOfByte0NeverMatter := by
  intro i s b b' hi hb hop m
  have hdecode := decodeChunk_update_byte0 hb hop
  have hsame : SameButInput m (exec i s) (exec i { s with inBuf := m }) := by
    rcases hi with rfl | rfl
    · exact hdecode
    · exact execFeed_update hdecode
  refine ⟨hsame.1, hsame.2, fun t hfit h6 ht => runFrame_decOpcode hfit h6 ?_⟩
  rw [runFrame_eq_exec, ← decodeChunk_eq hfit h6 hb]
  exact ht

end Sys2Proof.Machine
end

section
/-! PROOF. What the session commands answer: NOP (R225), DISCONNECT (R222), FEED (R215) and UPGRADE (R204 to R206):
O27, O29, O52, O53. -/

namespace Sys2Proof.Machine

open Sys2Proof

/-! ### NOP and DISCONNECT (R222, R225) -/

/-- Settles O27: NOP answers the state it is given. -/
theorem nopChangesNothing : Obligations.NopChangesNothing :=
  ⟨rfl, fun _ => rfl⟩

/-- Settles O29: DISCONNECT has no pre-check. -/
theorem disconnectClosesFromAnyState : Obligations.DisconnectClosesFromAnyState :=
  ⟨rfl, fun _ => rfl⟩

/-! ### FEED (R215) -/

theorem Result.closesSession_iff {r : Result} :
    r.closesSession = true ↔ r = .closeSignal ∨ r = .truncatedFrame ∨ r = .unmaskedClientFrame := by
  cases r <;> decide

/-- The session transition of FEED, with its three results written out. -/
theorem State.closeOnResult_eq (s : State) :
    s.closeOnResult =
      if s.status = .closeSignal ∨ s.status = .truncatedFrame ∨ s.status = .unmaskedClientFrame
      then { s with session := .closed } else s := by
  simp only [State.closeOnResult, Result.closesSession_iff]

/-- Settles O52: a written chunk decodes, and FEED moves the session of that decode's answer. -/
theorem feedIsDecodeWithTheSessionTransition : Obligations.FeedIsDecodeWithTheSessionTransition := by
  refine ⟨rfl, fun s => ⟨execFeed_not_opened, execFeed_long, fun hs hfit hw => ?_⟩⟩
  obtain ⟨d, -, hd⟩ := decodeChunk_total hfit hw
  refine ⟨s.finishDecode d, hd, ?_⟩
  rw [← State.closeOnResult_eq]
  exact (execFeed_opened hs).trans (congrArg closeOnResult hd)

/-! ### UPGRADE (R204 to R206) -/

/-- UPGRADE with a key that the host has written (R205). -/
theorem execUpgrade_of_input {s : State} {key : List Byte} (hs : s.session = .handshaking)
    (hfit : s.inLen.toNat ≤ s.cfg.bufCap) (hi : s.InputIs key) :
    execUpgrade true s = .next
      { s.finishOutput (upgradeHeader (acceptToken key) ++ textFrame s.cfg.greeting) 130 with
        session := .opened } := by
  unfold execUpgrade
  rw [if_neg (not_not.2 hs), if_neg (by decide), checkLength_fits hfit, readInput_ok_iff.2 hi]
  rfl

/-- The header is spelled from the strings of R204. -/
theorem upgradeHeader_eq_asciiBytes (token : List Byte) :
    upgradeHeader token =
      asciiBytes "HTTP/1.1 101 Web Socket Protocols" ++ [0x0D, 0x0A] ++
        asciiBytes "Upgrade: WebSocket" ++ [0x0D, 0x0A] ++
        asciiBytes "Connection: Upgrade" ++ [0x0D, 0x0A] ++
        asciiBytes "Sec-WebSocket-Accept: " ++ token ++ [0x0D, 0x0A] ++ [0x0D, 0x0A] := by
  have hstatus : statusLine = asciiBytes "HTTP/1.1 101 Web Socket Protocols" := by decide +kernel
  have hupgrade : upgradeLine = asciiBytes "Upgrade: WebSocket" := by decide +kernel
  have hconnection : connectionLine = asciiBytes "Connection: Upgrade" := by decide +kernel
  have haccept : acceptName = asciiBytes "Sec-WebSocket-Accept: " := by decide +kernel
  rw [upgradeHeader, crlf, hstatus, hupgrade, hconnection, haccept]

/-- An OK output of a 130-byte header and a greeting frame counts both (R205). -/
theorem finishOutput_upgrade (s : State) {header : List Byte} (hh : header.length = 130) (greeting : List Byte)
    (aux : Word) :
    s.finishOutput (header ++ textFrame greeting) aux =
      { s with
        status := .ok
        outBuf := Memory.writeBytes s.outBuf 0 (header ++ [0x81, BitVec.ofNat 8 greeting.length] ++ greeting)
        outLen := BitVec.ofNat 32 (130 + 2 + greeting.length)
        auxLen := aux } := by
  unfold State.finishOutput
  rw [List.length_append, hh, textFrame_length, ← Nat.add_assoc, List.append_assoc]
  rfl

/-- Settles O53: the pre-checks, then the output of a written key. -/
theorem upgradeOpensTheSession : Obligations.UpgradeOpensTheSession := by
  refine ⟨rfl, rfl, fun s kp key =>
    ⟨execUpgrade_not_handshaking, execUpgrade_no_key, execUpgrade_key_long, fun hs hfit hi => ?_⟩⟩
  rw [← upgradeHeader_eq_asciiBytes]
  refine (execUpgrade_of_input hs hfit hi).trans ?_
  rw [finishOutput_upgrade s (upgradeHeader_length (acceptToken_length key))]

end Sys2Proof.Machine
end

section
/-! PROOF. All the transitions of SESSION.STATE, over every host access (R200): O55. -/

namespace Sys2Proof.Machine

open Sys2Proof

/-- Only the encoding of a command that is not reserved decodes to it (R70, R72). -/
theorem decodeCommandWord_eq_iff {w v : Word} {i : Instr} (hn : ∀ op lo kp hi, i ≠ .reservedCmd op lo kp hi)
    (hi : Sys2Proof.encode i = .command v) (hv : decodeCommandWord v = i) :
    decodeCommandWord w = i ↔ w = v :=
  ⟨fun h => Code.command.inj ((encode_decodeCommandWord h hn).symm.trans hi), fun h => h ▸ hv⟩

theorem decodeCommandWord_eq_upgradeKey_iff {w : Word} : decodeCommandWord w = .upgrade true ↔ w = 0x104 :=
  decodeCommandWord_eq_iff nofun rfl rfl

theorem decodeCommandWord_eq_feed_iff {w : Word} : decodeCommandWord w = .feed ↔ w = 5 :=
  decodeCommandWord_eq_iff nofun rfl rfl

theorem decodeCommandWord_eq_disconnect_iff {w : Word} : decodeCommandWord w = .disconnect ↔ w = 6 :=
  decodeCommandWord_eq_iff nofun rfl rfl

/-- What a step that takes an access can do to the session: only a reset and a CMD write can move it. -/
theorem step_session_cases {s t : State} {a : HostAccess} {rest : List HostAccess} (hp : s.program = a :: rest)
    (h : step s = .next t) :
    (a = .reset ∧ t.session = .handshaking) ∨
    (∃ w, a = .write 0 4 w ∧ exec (decodeCommandWord w) { s with program := rest } = .next t) ∨
    (a ≠ .reset ∧ (∀ w, a ≠ .write 0 4 w) ∧ t.session = s.session) := by
  rcases step_next_cases h with ⟨hnil, -⟩ | ⟨a', rest', hp', hcases⟩
  · rw [hp] at hnil; cases hnil
  · rw [hp] at hp'
    cases hp'
    rcases hcases with ⟨rfl, rfl⟩ | ⟨addr, n, rfl, rfl⟩ | ⟨v, rfl, rfl⟩ | ⟨i, v, -, rfl, -, rfl⟩ |
      ⟨addr, n, v, rfl, hne, rfl⟩ | hcmd
    case inl => exact .inl ⟨rfl, rfl⟩
    case inr.inr.inr.inr.inr => exact .inr (.inl hcmd)
    all_goals refine .inr (.inr ⟨nofun, ?_, rfl⟩)
    · exact nofun
    · exact nofun
    · exact fun w hw => absurd (HostAccess.write.inj hw).2.1 (by decide)
    · exact fun w hw => hne (HostAccess.write.inj hw).1

/-- Settles O55: a CMD write moves the session as `exec_session_cases` says, and its word is the command's. -/
theorem sessionTransitions : Obligations.SessionTransitions := by
  intro s t a rest hp h closes
  rcases step_session_cases hp h with ⟨rfl, ht⟩ | ⟨w, rfl, hexec⟩ | ⟨hreset, hcmd, ht⟩
  · exact ⟨.inr (.inr (.inr (.inr ⟨ht, rfl⟩))), nofun, nofun, nofun, fun _ => ht⟩
  · simp only [HostAccess.write.injEq, true_and, ← decodeCommandWord_eq_upgradeKey_iff,
      ← decodeCommandWord_eq_feed_iff, ← decodeCommandWord_eq_disconnect_iff]
    have hcloses : t.status.closesSession = true ↔ closes := Result.closesSession_iff
    generalize decodeCommandWord w = i at hexec ⊢
    rcases exec_session_cases hexec with ⟨rfl, ht⟩ | ⟨rfl, hs, ht, hok⟩ | ⟨rfl, hs, ht⟩ | ⟨hdis, hup, hfeed, ht⟩
    · exact ⟨.inr (.inr (.inr (.inl ⟨ht, rfl⟩))), nofun, nofun, fun _ => ht, nofun⟩
    · exact ⟨.inr (.inl ⟨hs, ht, rfl, hok⟩), fun _ _ _ => ht, nofun, nofun, nofun⟩
    · by_cases hc : t.status.closesSession = true
      · rw [if_pos hc] at ht
        exact ⟨.inr (.inr (.inl ⟨hs, ht, rfl, hcloses.1 hc⟩)), nofun, fun _ _ _ => ht, nofun, nofun⟩
      · rw [if_neg hc] at ht
        exact ⟨.inl (ht.trans hs.symm), nofun, fun _ _ h => absurd (hcloses.2 h) hc, nofun, nofun⟩
    · exact ⟨.inl ht, fun hs hi hok => absurd hok (hup hi hs), fun hs hi => absurd hs (hfeed hi),
        fun hi => absurd hi hdis, nofun⟩
  · exact ⟨.inl ht, fun _ ha => absurd ha (hcmd _), fun _ ha => absurd ha (hcmd _),
      fun ha => absurd ha (hcmd _), fun ha => absurd ha hreset⟩

end Sys2Proof.Machine
end

section
/-! PROOF. Closed is left by reset alone, and the commands that do not need the session stay legal in it (R201): O56. -/

namespace Sys2Proof.Machine

open Sys2Proof

/-- A step takes the first of the host's accesses and no other (R58). -/
theorem step_program {s t : State} (h : step s = .next t) : t.program = s.program.tail := by
  rcases step_next_cases h with ⟨hnil, rfl⟩ | ⟨a, rest, hp, hcases⟩
  · rw [hnil]; rfl
  · rw [hp]
    rcases hcases with ⟨-, rfl⟩ | ⟨_, _, -, rfl⟩ | ⟨_, -, rfl⟩ | ⟨_, _, -, -, -, rfl⟩ | ⟨_, _, _, -, -, rfl⟩ |
      ⟨_, -, hexec⟩
    case inr.inr.inr.inr.inr => exact exec_program hexec
    all_goals rfl

theorem run_succ_next_iff {M : Host.Core} {k : Nat} {s t : M.State} :
    M.run (k + 1) s = .next t ↔ ∃ u, M.step s = .next u ∧ M.run k u = .next t := by
  rw [Host.Core.run]
  cases M.step s <;> simp

/-- A predicate that every step keeps holds at the end of every run. -/
theorem run_keeps {M : Host.Core} {P : M.State → Prop} (hstep : ∀ {s t : M.State}, P s → M.step s = .next t → P t) :
    ∀ {k : Nat} {s t : M.State}, P s → M.run k s = .next t → P t
  | 0, _, _, hs, h => by cases h; exact hs
  | _ + 1, _, _, hs, h => by
    obtain ⟨u, hu, hrest⟩ := run_succ_next_iff.1 h
    exact run_keeps hstep (hstep hs hu) hrest

/-- Closed, with no reset among the host's accesses to come. -/
def State.ClosedForGood (s : State) : Prop := s.session = .closed ∧ HostAccess.reset ∉ s.program

theorem step_keeps_closedForGood {s t : State} (hs : s.ClosedForGood) (h : step s = .next t) :
    t.ClosedForGood := by
  obtain ⟨hclosed, hreset⟩ := hs
  refine ⟨?_, fun hmem => hreset (List.mem_of_mem_tail (step_program h ▸ hmem))⟩
  cases hp : s.program with
  | nil =>
    rw [step_nil hp] at h
    cases h; exact hclosed
  | cons a rest =>
    obtain ⟨hmoves, -⟩ := sessionTransitions s t a rest hp h
    rcases hmoves with hsame | ⟨hhand, -⟩ | ⟨hopen, -⟩ | ⟨ht, -⟩ | ⟨-, rfl⟩
    · exact hsame.trans hclosed
    · rw [hclosed] at hhand; cases hhand
    · rw [hclosed] at hopen; cases hopen
    · exact ht
    · rw [hp] at hreset; exact absurd List.mem_cons_self hreset

theorem DecodedOk.res_ne_badState {s : State} {d : Decoded} (h : DecodedOk s d) : d.res ≠ .badState := by
  rcases h with ⟨h, -⟩ | ⟨-, ⟨h, -⟩ | ⟨h, -⟩ | ⟨h, -⟩ | ⟨h, -⟩⟩ <;> rw [h] <;> decide

/-- SIGN, ENCODE and DECODE have no pre-check of the session: on a written input they complete in every session
state, with another result than BAD_STATE, and leave the session as it is. -/
theorem exec_of_anySession {s : State} {i : Instr} (hi : i = .sign ∨ i = .encode ∨ i = .decode)
    (hfit : s.inLen.toNat ≤ s.cfg.bufCap) (hw : s.inputWritten = true) :
    ∃ t, exec i s = .next t ∧ t.status ≠ .badState ∧ t.session = s.session := by
  obtain ⟨bs, hbs⟩ := inputWritten_iff.1 hw
  rcases hi with rfl | rfl | rfl
  · exact ⟨_, execSign_of_input hfit hbs, nofun, rfl⟩
  · by_cases hlong : 125 < s.inLen.toNat
    · exact ⟨_, execEncode_next_iff.2 (.inr (.inl ⟨hfit, hlong, rfl⟩)), nofun, rfl⟩
    · exact ⟨_, execEncode_next_iff.2 (.inr (.inr ⟨hfit, by omega, bs, hbs, rfl⟩)), nofun, rfl⟩
  · obtain ⟨d, hd, hdecode⟩ := decodeChunk_total hfit hw
    exact ⟨_, hdecode, by simpa using hd.res_ne_badState, by simp⟩

/-- Settles O56: every step keeps `State.ClosedForGood`, and the commands answer from their pre-checks. -/
theorem closedIsTerminalUntilReset : Obligations.ClosedIsTerminalUntilReset := by
  intro s hs
  refine ⟨fun k t hreset hrun => ?run, ?feed, fun kp => ?upgrade, fun i hi hfit hw => ?legal, ?disconnect⟩
  case run => exact (run_keeps (M := core) step_keeps_closedForGood ⟨hs, hreset⟩ hrun).1
  case feed => exact execFeed_not_opened (by simp [hs])
  case upgrade => exact execUpgrade_not_handshaking (by simp [hs])
  case legal => rw [← hs]; exact exec_of_anySession hi hfit hw
  case disconnect =>
    refine (disconnectClosesFromAnyState.2 s).trans ?_
    rw [← hs]

end Sys2Proof.Machine
end

section
/-! PROOF. A result other than OK leaves no output (R242): one inversion lemma for the instructions that finish with
such a result, in its two shapes, without a decode and with one, and O21 from it. -/

namespace Sys2Proof.Machine

open Sys2Proof

/-- A result other than OK that no decode gives (R74, R142). -/
abbrev Result.WithoutDecode (r : Result) : Prop :=
  r = .badCommand ∨ r = .badState ∨ r = .missingKey ∨ r = .badLength ∨ r = .payloadTooLong

theorem Result.WithoutDecode.not_decodeResult {r : Result} (h : r.WithoutDecode) :
    ¬ (r = .closeSignal ∨ r = .ignored ∨ r = .truncatedFrame ∨ r = .unmaskedClientFrame) := by
  rcases h with rfl | rfl | rfl | rfl | rfl <;> decide

/-- `r` is a decode result other than OK, and R175 puts `opc` in DEC_OPCODE with it. -/
def SignalsOpcode (s : State) (r : Result) (opc : BitVec 4) : Prop :=
  (r = .truncatedFrame ∧ opc = if s.inLen.toNat < 6 then 0 else 1) ∨ (r = .closeSignal ∧ opc = 8) ∨
    (r = .ignored ∧ opc ≠ 1 ∧ opc ≠ 8) ∨ (r = .unmaskedClientFrame ∧ opc = 1)

theorem SignalsOpcode.opcode {s : State} {r : Result} {opc : BitVec 4} (h : SignalsOpcode s r opc) :
    (r = .closeSignal → opc = 8) ∧ (r = .unmaskedClientFrame → opc = 1) ∧
      (r = .truncatedFrame → opc = if s.inLen.toNat < 6 then 0 else 1) ∧
      (r = .ignored → opc ≠ 1 ∧ opc ≠ 8) := by
  rcases h with ⟨rfl, hopc⟩ | ⟨rfl, hopc⟩ | ⟨rfl, hopc⟩ | ⟨rfl, hopc⟩
  · exact ⟨nofun, nofun, fun _ => hopc, nofun⟩
  · exact ⟨fun _ => hopc, nofun, nofun, nofun⟩
  · exact ⟨nofun, nofun, nofun, fun _ => hopc⟩
  · exact ⟨nofun, fun _ => hopc, nofun, nofun⟩

theorem SignalsOpcode.not_withoutDecode {s : State} {r : Result} {opc : BitVec 4} (h : SignalsOpcode s r opc) :
    ¬ r.WithoutDecode := by
  rcases h with ⟨rfl, -⟩ | ⟨rfl, -⟩ | ⟨rfl, -⟩ | ⟨rfl, -⟩ <;> decide

/-- The decode results other than OK that move the session are all but IGNORED (R200, R215). -/
theorem SignalsOpcode.closesSession_iff {s : State} {r : Result} {opc : BitVec 4} (h : SignalsOpcode s r opc) :
    r.closesSession = true ↔ r ≠ .ignored := by
  rcases h with ⟨rfl, -⟩ | ⟨rfl, -⟩ | ⟨rfl, -⟩ | ⟨rfl, -⟩ <;> decide

/-- A decode that does not finish OK ended at its length check, or with an opcode only (R175). -/
theorem DecodeFinish.not_ok_cases {s t : State} (h : DecodeFinish s t) (hok : t.status ≠ .ok) :
    t = s.failed .badLength ∨ ∃ r opc, SignalsOpcode s r opc ∧ t = s.decodeFailed r opc := by
  rcases h with ⟨-, rfl⟩ | ⟨-, d, hd, rfl⟩
  · exact .inl rfl
  · have hres : d.res ≠ .ok := by rwa [State.finishDecode_status] at hok
    obtain ⟨hsignal, hopc⟩ := hd.resolve_left fun h => hres h.1
    refine .inr ⟨d.res, d.opc, hopc, ?_⟩
    rw [hsignal]
    exact finishDecode_signal s d.res d.opc hres

/-- The session transition of FEED on a decode result other than OK (R215). -/
theorem SignalsOpcode.closeOnResult_decodeFailed {s : State} {r : Result} {opc : BitVec 4}
    (h : SignalsOpcode s r opc) :
    (s.decodeFailed r opc).closeOnResult =
      { s.decodeFailed r opc with session := if r ≠ .ignored then .closed else s.session } := by
  by_cases hr : r = .ignored
  · subst hr; exact closeOnResult_of_not_closes rfl
  · rw [if_pos hr]; exact closeOnResult_of_closes (h.closesSession_iff.2 hr)

/-- What an instruction but NOP can do when it finishes with a result other than OK (R242): it fails without a decode,
or its decode gives an opcode and nothing more. -/
theorem exec_not_ok_cases {i : Instr} {s t : State} (h : exec i s = .next t) (hnop : i ≠ .nop)
    (hok : t.status ≠ .ok) :
    (∃ r : Result, r.WithoutDecode ∧ t = s.failed r) ∨
    (runsDecode i = true ∧ ∃ r opc, SignalsOpcode s r opc ∧
      t = { s.decodeFailed r opc with
            session := if i = .feed ∧ r ≠ .ignored then .closed else s.session }) := by
  rcases exec_next_cases h with ⟨rfl, -⟩ | ⟨-, rfl⟩ | ⟨-, r, hr, rfl⟩ | ⟨-, -, key, -, rfl⟩ | ⟨-, payload, -, rfl⟩ |
    ⟨-, -, -, key, -, rfl⟩ | ⟨hruns, hfeed, hd⟩ | ⟨rfl, ⟨-, rfl⟩ | ⟨-, u, hd, rfl⟩⟩
  · exact absurd rfl hnop
  · exact absurd rfl hok
  · exact .inl ⟨r, by tauto, rfl⟩
  · exact absurd rfl hok
  · exact absurd rfl hok
  · exact absurd rfl hok
  · rcases hd.not_ok_cases hok with rfl | ⟨r, opc, hopc, rfl⟩
    · exact .inl ⟨.badLength, by decide, rfl⟩
    · refine .inr ⟨hruns, r, opc, hopc, ?_⟩
      rw [if_neg fun hi => hfeed hi.1]
      rfl
  · exact .inl ⟨.badState, by decide, rfl⟩
  · rw [State.closeOnResult_status] at hok
    rcases hd.not_ok_cases hok with rfl | ⟨r, opc, hopc, rfl⟩
    · exact .inl ⟨.badLength, by decide, closeOnResult_of_not_closes rfl⟩
    · exact .inr ⟨rfl, r, opc, hopc, by simp only [hopc.closeOnResult_decodeFailed, true_and]⟩

/-- Settles O21: each clause is about one of the two shapes of `exec_not_ok_cases`, and no result has both. -/
theorem failedCommandWritesNoOutput : Obligations.FailedCommandWritesNoOutput := by
  refine ⟨fun _ => rfl, fun i s t h hnop hok => ?_⟩
  rcases exec_not_ok_cases h hnop hok with ⟨r, hr, rfl⟩ | ⟨hruns, r, opc, hopc, rfl⟩
  · exact ⟨rfl, rfl, rfl, fun _ => rfl, fun hdecode => absurd hdecode hr.not_decodeResult⟩
  · exact ⟨rfl, rfl, rfl, fun hr => absurd hr hopc.not_withoutDecode, fun _ => ⟨hruns, rfl, hopc.opcode⟩⟩

end Sys2Proof.Machine
end

section
/-! PROOF. The step that takes the reset input is `State.applyReset` of the accesses left (R270): O16. -/

namespace Sys2Proof.Machine

open Sys2Proof

/-- Reset is taken whatever the state: it has no check that can refuse it. -/
theorem step_reset {s : State} {rest : List HostAccess} (h : s.program = .reset :: rest) :
    step s = .next (State.applyReset { s with program := rest }) :=
  step_cons h

/-- After reset no byte of either buffer counts as written. -/
theorem State.applyReset_buffers_unwritten (s : State) (i : Nat) :
    Memory.read s.applyReset.inBuf i = none ∧ Memory.read s.applyReset.outBuf i = none := by
  rw [State.applyReset_inBuf, State.applyReset_outBuf]
  exact ⟨Memory.read_nil i, Memory.read_nil i⟩

/-- Settles O16: the next state is known whole by `step_reset`, and each field is one of reset's laws. -/
theorem resetInputRestoresEveryRegister : Obligations.ResetInputRestoresEveryRegister := by
  intro s rest hp
  refine ⟨_, step_reset hp, ?_⟩
  simp only [State.applyReset_status, State.applyReset_session, State.applyReset_inLen, State.applyReset_outLen,
    State.applyReset_auxLen, State.applyReset_decOpcode, State.applyReset_decMaskKey, State.applyReset_decLenLo,
    State.applyReset_decLenHi, State.applyReset_buffers_unwritten, State.applyReset_cfg, State.applyReset_program,
    and_self, implies_true]

end Sys2Proof.Machine
end

section
/-! PROOF. The two directions of the encodings (spec/30_encoding.md): what an instruction encodes to decodes to it, and
what a code decodes to encodes back to it: O1, O2, O3. -/

namespace Sys2Proof

/-! ### Command words (R70, R72) -/

theorem decodeCommandWord_commandWord_reserved {op lo : BitVec 4} {kp : Bool} {hi : BitVec 23}
    (h : reservedFields op lo kp hi = true) :
    decodeCommandWord (commandWord op lo kp hi) = .reservedCmd op lo kp hi := by
  have hr : Machine.reservedWord (commandWord op lo kp hi) := by
    rwa [← reservedFields_iff, commandWord_op, commandWord_rsvdLo, commandWord_kp, commandWord_rsvdHi]
  rw [decodeCommandWord_reserved hr, commandWord_op, commandWord_rsvdLo, commandWord_kp, commandWord_rsvdHi]

/-- A word without reserved bits is its command, or a reserved one by its OP and KP. -/
theorem decodeOp_wf_encode : ∀ (op : BitVec 4) (kp : Bool),
    ((decodeOp op kp).getD (.reservedCmd op 0 kp 0)).wf = true ∧
      encode ((decodeOp op kp).getD (.reservedCmd op 0 kp 0)) = .command (commandWord op 0 kp 0) := by decide

/-- No bit of a command word is dropped, whether its reserved bits are 0 or not. -/
theorem decodeCommandWord_wf_encode (w : Word) :
    (decodeCommandWord w).wf = true ∧ encode (decodeCommandWord w) = .command w := by
  have hw := commandWord_fields w
  unfold decodeCommandWord
  dsimp only
  generalize w.extractLsb' 0 4 = op, w.extractLsb' 4 4 = lo, w.getLsbD 8 = kp, w.extractLsb' 9 23 = hi at hw ⊢
  subst hw
  split
  case isTrue h0 =>
    obtain ⟨rfl, rfl⟩ := h0
    exact decodeOp_wf_encode op kp
  case isFalse h0 =>
    refine ⟨?_, rfl⟩
    simp only [Instr.wf, reservedFields, Bool.or_eq_true, decide_eq_true_eq]
    exact .inl (.inl (not_and_or.1 h0))

/-! ### Byte 0 of an incoming frame (R80, R85) -/

/-- Each opcode nibble has one instruction, and FIN, RSV and the nibble are all of byte 0. -/
theorem decodeFrameByte_wf_encode : ∀ b : Byte,
    (decodeFrameByte b).wf = true ∧ encode (decodeFrameByte b) = .frameByte b := by decide

/-! ### The header of an outgoing frame (R82) -/

theorem maskBit_unmaskedByte1 : ∀ l : BitVec 7, maskBit (BitVec.ofBool false ++ l) = false := by decide

theorem len7Field_unmaskedByte1 : ∀ l : BitVec 7, len7Field (BitVec.ofBool false ++ l) = l := by decide

theorem unmaskedByte1_fields : ∀ b1 : Byte, maskBit b1 = false → BitVec.ofBool false ++ len7Field b1 = b1 := by decide

/-- The decoder of outgoing headers takes exactly the headers of R82. -/
theorem decodeOutHeader_ok_iff {b0 b1 : Byte} {i : Instr} :
    decodeOutHeader b0 b1 = .ok i ↔
      b0 = 0x81 ∧ maskBit b1 = false ∧ (len7Field b1).toNat ≤ 125 ∧ i = .textOut (len7Field b1) := by
  unfold decodeOutHeader
  split_ifs with h0 hm hl
  · exact iff_of_false nofun fun h => h0 h.1
  · simp [hm]
  · exact iff_of_false nofun fun h => by omega
  · simp [not_not.1 h0, hm, not_lt.1 hl, eq_comm]

/-! ### Both directions -/

/-- Settles O1, by the constructors: a reserved word, byte 0 of a frame, an outgoing header. -/
theorem encodedInstructionDecodesBack : Obligations.EncodedInstructionDecodesBack := by
  intro i hwf
  cases i with
  | nop | sign | encode | decode | feed | disconnect => rfl
  | upgrade kp => cases kp <;> rfl
  | reservedCmd op lo kp hi => exact congrArg Except.ok (decodeCommandWord_commandWord_reserved hwf)
  | textOut l =>
    refine decodeOutHeader_ok_iff.2 ⟨rfl, maskBit_unmaskedByte1 l, ?_, ?_⟩ <;> rw [len7Field_unmaskedByte1]
    exact of_decide_eq_true hwf
  | text fin rsv | close fin rsv | ignored0 fin rsv | ignored2 fin rsv | ignored3 fin rsv | ignored4 fin rsv
  | ignored5 fin rsv | ignored6 fin rsv | ignored7 fin rsv | ignored9 fin rsv | ignoredA fin rsv | ignoredB fin rsv
  | ignoredC fin rsv | ignoredD fin rsv | ignoredE fin rsv | ignoredF fin rsv =>
    simp only [encode, Sys2Proof.decode, decodeFrameByte, opcodeNibble_frameByte0, finBit_frameByte0,
      rsvBits_frameByte0]
    rfl

/-- Settles O2, form by form. -/
theorem decodedCodeEncodesBack : Obligations.DecodedCodeEncodesBack := by
  intro c i h
  cases c with
  | command w => cases h; exact decodeCommandWord_wf_encode w
  | frameByte b => cases h; exact decodeFrameByte_wf_encode b
  | outHeader b0 b1 =>
    obtain ⟨rfl, hmask, hlen, rfl⟩ := decodeOutHeader_ok_iff.1 h
    exact ⟨decide_eq_true hlen, congrArg (Code.outHeader 0x81) (unmaskedByte1_fields b1 hmask)⟩

/-- Settles O3: each word evaluates to its instruction. -/
theorem writtenOutWordsDecode : Obligations.WrittenOutWordsDecode := by
  unfold Obligations.WrittenOutWordsDecode
  decide

end Sys2Proof
end

section
/-! PROOF. What a host read returns (R22, R51, R52), what the accesses of `load` place (R96), and what idle steps and
CMD writes do (R56, R254): O5, O9, O11, O12, O14, O15, O17. -/

namespace Sys2Proof.Machine

open Sys2Proof

/-! ### Steps (R56, R254) -/

/-- Settles O5. -/
theorem cmdWriteRunsDecodedInstruction : Obligations.CmdWriteRunsDecodedInstruction :=
  fun _ _ _ hp => step_cmd hp rfl

/-- Settles O9. -/
theorem idleHoldsItsState : Obligations.IdleHoldsItsState :=
  fun _ => step_nil

/-! ### Reads of the register window (R22) -/

theorem hostRead_regAddr (s : State) (r : Reg) : s.hostRead r.addr = s.readReg r := by
  cases r <;> rfl

/-- No register stands at the offsets 0x30 to 0xFFC. -/
theorem regAt_unassigned {off : Nat} (h : 0x30 ≤ off) : regAt off = none := by
  cases hr : regAt off with
  | none => rfl
  | some r =>
    have hoff := offset_of_regAt hr
    have hlt : r.offset < 0x30 := by cases r <;> decide
    omega

theorem hostRead_unassigned (s : State) {off : Nat} (h : 0x30 ≤ off) (h' : off ≤ 0xFFC) :
    s.hostRead (BitVec.ofNat 32 off) = 0 := by
  have hr : regionOf (BitVec.ofNat 32 off) = .register off :=
    regionOf_register_iff.2 ⟨by rw [BitVec.toNat_ofNat]; omega, by omega⟩
  simp only [State.hostRead, hr, regAt_unassigned h]

/-- CFG has LEN_MODE in bit 0 and CHECK_MASK in bit 1 (R32). -/
theorem cfgWord_toNat (c : Config) :
    (cfgWord c).toNat = (if c.lenMode = .rfc then 1 else 0) + (if c.checkMask then 2 else 0) := by
  unfold cfgWord
  cases c.lenMode <;> cases c.checkMask <;> rfl

/-- Settles O11, register by register. -/
theorem registerReadValues : Obligations.RegisterReadValues := by
  intro s
  have hread := hostRead_regAddr s
  have hsession : ∀ ses : Session, s.session = ses → s.hostRead 0x008 = ses.code.setWidth 32 :=
    fun _ h => h ▸ hread .session
  exact ⟨hread .cmd, hread .status, hread .session, hsession .handshaking, hsession .opened, hsession .closed,
    hread .inLen, hread .outLen, hread .auxLen, hread .decOpcode, hread .decMaskKey, hread .decLenLo,
    hread .decLenHi, (congrArg BitVec.toNat (hread .cfg)).trans (cfgWord_toNat s.cfg), hread .bufCap,
    fun _ => hostRead_unassigned s⟩

/-- Settles O17: `State.resetOf` has every register but the two of the parameters at 0. -/
theorem resetStateRegisterReads : Obligations.ResetStateRegisterReads := by
  intro c r hcfg hcap
  rw [hostRead_regAddr]
  cases r with
  | cfg => exact absurd rfl hcfg
  | bufCap => exact absurd rfl hcap
  | _ => rfl

/-! ### Reads of the buffer windows (R51, R52) -/

theorem hostRead_inAddr (s : State) {i : Nat} (h : i < 0x10000) :
    s.hostRead (inAddr i) = (s.hostInByte i).setWidth 32 := by
  simp only [State.hostRead, regionOf_inAddr h]

theorem hostRead_outAddr (s : State) {i : Nat} (h : i < 0x10000) :
    s.hostRead (outAddr i) = (s.hostOutByte i).setWidth 32 := by
  simp only [State.hostRead, regionOf_outAddr h]

theorem hostInByte_written {s : State} {i : Nat} {b : Byte} (hi : i < s.cfg.bufCap)
    (hb : Memory.read s.inBuf i = some b) : s.hostInByte i = b := by
  rw [State.hostInByte, if_pos hi, hb, Option.getD_some]

theorem hostOutByte_written {s : State} {i : Nat} {b : Byte} (hi : i < s.cfg.bufCap)
    (hb : Memory.read s.outBuf i = some b) : s.hostOutByte i = b := by
  rw [State.hostOutByte, if_pos hi, hb, Option.getD_some]

/-- Settles O12: both windows read as their buffer's byte below BUF_CAP and as 0 from there on. -/
theorem bufferWindowReadValues : Obligations.BufferWindowReadValues := by
  intro s i _ hw
  have hin : s.hostRead (BitVec.ofNat 32 (0x10000 + i)) = _ := hostRead_inAddr s hw
  have hout : s.hostRead (BitVec.ofNat 32 (0x20000 + i)) = _ := hostRead_outAddr s hw
  rw [hin, hout]
  refine ⟨fun hi b hb => ?inByte, fun hi b hb => ?outByte, fun hcap => ?beyond⟩
  case inByte => rw [hostInByte_written hi hb]
  case outByte => rw [hostOutByte_written hi hb]
  case beyond =>
    rw [State.hostInByte, State.hostOutByte, if_neg (by omega), if_neg (by omega)]
    exact ⟨rfl, rfl⟩

/-! ### Writing the input (R51, R96) -/

/-- `wb i, v` stores the byte and takes the access (R95). -/
theorem step_wb {s : State} {i : Nat} {v : Byte} {rest : List HostAccess} (hp : s.program = wb i v :: rest)
    (hi : i < s.cfg.bufCap) (hw : i < 0x10000) :
    step s = .next { s with program := rest, inBuf := Memory.write s.inBuf i v } := by
  have hv : (v.setWidth 32).setWidth 8 = v := by simp
  have hstep := (step_write hp (accessAllowed_inAddr hw)).trans (hostWrite_inAddr hi hw)
  rwa [hv] at hstep

/-- `wr IN_LEN, v` stores the word and takes the access (R95). -/
theorem step_wrInLen {s : State} {v : Word} {rest : List HostAccess} (hp : s.program = wr .inLen v :: rest) :
    step s = .next { s with program := rest, inLen := v } :=
  step_cons hp

/-- A byte written to IN_BUF is seen at its own address only. -/
theorem hostRead_write_other (s : State) {i : Nat} (v : Byte) {addr : Word} (h : addr.toNat ≠ 0x10000 + i) :
    ({ s with inBuf := Memory.write s.inBuf i v } : State).hostRead addr = s.hostRead addr := by
  unfold State.hostRead
  cases hr : regionOf addr with
  | inWindow j =>
    obtain ⟨hj, -⟩ := regionOf_inWindow_iff.1 hr
    simp only [State.hostInByte, Memory.read_write_other s.inBuf v (show j ≠ i by omega)]
  | register off => rfl
  | outWindow j => rfl
  | outside => rfl

/-- Settles O14: the host's own side of the port does not show in a read. -/
theorem inputByteWriteThenRead : Obligations.InputByteWriteThenRead := by
  intro s i v rest hwf hi hp
  obtain ⟨-, -, -, hcap⟩ := Config.wf_bounds hwf
  have hw : i < 0x10000 := by omega
  refine ⟨_, step_wb hp hi hw, ?same, fun addr hne => ?other⟩
  case same =>
    refine (hostRead_inAddr _ hw).trans (congrArg (BitVec.setWidth 32) ?_)
    exact hostInByte_written hi (Memory.read_write_same ..)
  case other => exact hostRead_write_other { s with program := rest } v hne

theorem run_succ_of_step {M : Host.Core} {k : Nat} {s u : M.State} (h : M.step s = .next u) :
    M.run (k + 1) s = M.run k u := by
  rw [Host.Core.run, h]

/-- The byte writes of `load`, one step each, write the bytes in a row. -/
theorem run_loadBytes (k : Nat) : ∀ {bs : List Byte} {s : State} {i : Nat} {rest : List HostAccess},
    s.program = loadBytes i bs ++ rest → i + bs.length ≤ s.cfg.bufCap → s.cfg.bufCap ≤ 65536 →
    core.run (bs.length + k) s =
      core.run k { s with program := rest, inBuf := Memory.writeBytes s.inBuf i bs }
  | [], s, i, rest, hp, _, _ => by
    subst hp
    rw [List.length_nil, Nat.zero_add]
    rfl
  | b :: bs, s, i, rest, hp, hle, hcap => by
    rw [List.length_cons] at hle ⊢
    have hstep : core.step s = .next _ := step_wb hp (by omega) (by omega)
    rw [Nat.add_right_comm, run_succ_of_step hstep]
    exact run_loadBytes k (bs := bs) rfl (by dsimp only; omega) hcap

theorem inputIs_writeBytes (s : State) {bs : List Byte} (h : bs.length < 2 ^ 32) :
    ({ s with inLen := BitVec.ofNat 32 bs.length, inBuf := Memory.writeBytes s.inBuf 0 bs } : State).InputIs bs :=
  ⟨(BitVec.toNat_ofNat ..).trans (Nat.mod_eq_of_lt h), fun _ hi => (Memory.read_writeBytes_zero ..).trans (if_pos hi)⟩

/-- Settles O15: after the byte writes one access is left, the write to IN_LEN. -/
theorem loadPlacesTheInput : Obligations.LoadPlacesTheInput := by
  intro s bs rest hwf hle hp t
  obtain ⟨-, -, -, hcap⟩ := Config.wf_bounds hwf
  rw [load, List.append_assoc] at hp
  refine ⟨(run_loadBytes 1 hp (by omega) hcap).trans ?_, inputIs_writeBytes { s with program := rest } (by omega)⟩
  have hstep : step { t with program := wr .inLen (BitVec.ofNat 32 bs.length) :: rest, inLen := s.inLen } = .next t :=
    step_wrInLen rfl
  exact run_succ_of_step (M := core) (k := 0) hstep

end Sys2Proof.Machine
end

section
/-! PROOF. The invariant holds after reset, and what one command or one access writes keeps it: a lemma per shape of
a next state (`exec_next_cases`, `step_next_cases`), and O18 and O19 from them. -/

namespace Sys2Proof.Machine

open Sys2Proof

/-! ### Reset (R270) -/

theorem resetOf_decLen (c : Config) : (State.resetOf c).decLen = 0 := by
  rw [State.decLen, State.resetOf_decLenHi, State.resetOf_decLenLo]
  rfl

theorem resetOf_inv {c : Config} (h : c.wf = true) : (State.resetOf c).Inv where
  cfgWf := h
  inWf := .nil
  inBelow := nofun
  outWf := .nil
  outBelow := nofun
  outLenLe := Nat.zero_le _
  outWritten := nofun
  auxLen := .inl rfl
  noOutput := fun _ => ⟨rfl, rfl⟩
  decText := fun _ => ⟨resetOf_decLen c, rfl⟩
  decFits := fun hne => absurd (resetOf_decLen c) hne
  decLiteral := fun _ => ⟨rfl, Nat.zero_le _⟩

/-- Settles O18: every register of the reset state is 0 and both buffers are empty. -/
theorem resetMeetsTheInvariant : Obligations.ResetMeetsTheInvariant :=
  ⟨resetOf_inv (by decide), fun _ => resetOf_inv⟩

/-- What DecodeCore returns with OK (R170 to R172). -/
theorem DecodedOk.of_ok {s : State} {d : Decoded} (h : DecodedOk s d) (hok : d.res = .ok) :
    d.opc = 1 ∧ d.pay.length = d.len.toNat ∧ d.len.toNat + 6 ≤ s.inLen.toNat ∧
      (s.cfg.lenMode = .literal → d.len.toNat ≤ 127) := by
  rcases h with ⟨-, h⟩ | ⟨-, hres⟩
  · exact h
  · rw [hok] at hres; simp at hres

namespace State.Inv

variable {s : State}

theorem applyReset (h : s.Inv) : s.applyReset.Inv :=
  { resetOf_inv h.cfgWf with }

/-! ### Ending a command (R242) -/

/-- With no output there is nothing to be said of OUT_BUF beyond its form, whatever the result and the session. -/
theorem noOutputs (h : s.Inv) (r : Result) (ses : Session) :
    ({ s with status := r, session := ses, outLen := 0, auxLen := 0 } : State).Inv :=
  { h with
    outLenLe := Nat.zero_le _
    outWritten := nofun
    auxLen := .inl rfl
    noOutput := fun _ => ⟨rfl, rfl⟩ }

theorem finishError (h : s.Inv) (r : Result) : (s.finishError r).Inv := h.noOutputs r s.session

/-- The session is no part of the invariant. -/
theorem withSession (h : s.Inv) (ses : Session) : ({ s with session := ses } : State).Inv := { h with }

theorem closeOnResult (h : s.Inv) : s.closeOnResult.Inv := by
  unfold State.closeOnResult
  split
  · exact h.withSession _
  · exact h

/-- An OK output that fits the buffer, with the greeting frame counted in AUX_LEN or not (R107, R142, R205). -/
theorem finishOutput (h : s.Inv) {bs : List Byte} {aux : Word} (hfit : bs.length ≤ s.cfg.bufCap)
    (haux : aux = 0 ∨ (aux = 130 ∧ bs.length = 132 + s.cfg.greeting.length)) : (s.finishOutput bs aux).Inv := by
  obtain ⟨-, -, -, hcap⟩ := Config.wf_bounds h.cfgWf
  have hlen : (s.finishOutput bs aux).outLen.toNat = bs.length := by
    rw [State.finishOutput_outLen, BitVec.toNat_ofNat]
    exact Nat.mod_eq_of_lt (by omega)
  exact { h with
    outWf := Memory.wf_writeBytes bs 0 h.outWf
    outBelow := Memory.below_writeBytes bs (by rwa [Nat.zero_add]) h.outBelow
    outLenLe := hlen.trans_le hfit
    outWritten := fun i hi => by
      rw [hlen] at hi
      rw [State.finishOutput_outBuf, Memory.read_writeBytes_zero, if_pos hi]
      simpa using hi
    auxLen := by rwa [hlen]
    noOutput := fun hok => absurd rfl hok }

/-! ### The decode (R175) -/

/-- The DEC_ registers of a frame: a length in the chunk, and only for Text, as a key (R30, R31). -/
theorem withDecoded (h : s.Inv) {opc : BitVec 4} {key : Word} {len : BitVec 64}
    (htext : opc ≠ 1 → len = 0 ∧ key = 0) (hfits : len ≠ 0 → len.toNat + 6 ≤ s.cfg.bufCap)
    (hliteral : s.cfg.lenMode = .literal → len.toNat ≤ 127) :
    ({ s with
        decOpcode := opc, decMaskKey := key
        decLenLo := len.extractLsb' 0 32, decLenHi := len.extractLsb' 32 32 } : State).Inv :=
  { h with
    decText := by rwa [State.decLen, len_halves]
    decFits := by rwa [State.decLen, len_halves]
    decLiteral := fun hl => by
      have hle := hliteral hl
      refine ⟨len_high_zero (by omega), ?_⟩
      simp only [BitVec.extractLsb'_toNat, Nat.shiftRight_zero]
      omega }

/-- The writes of R175 keep the invariant, with what DecodeCore can return. -/
theorem finishDecode (h : s.Inv) {d : Decoded} (hd : DecodedOk s d) (hfit : s.inLen.toNat ≤ s.cfg.bufCap) :
    (s.finishDecode d).Inv := by
  unfold State.finishDecode
  split
  case isTrue hok =>
    obtain ⟨hopc, hpay, hchunk, hliteral⟩ := hd.of_ok hok
    have hlen : d.len.setWidth 32 = BitVec.ofNat 32 d.pay.length := BitVec.eq_of_toNat_eq (by simp [hpay])
    rw [hlen]
    exact (h.finishOutput (bs := d.pay) (by omega) (.inl rfl)).withDecoded (fun hne => absurd hopc hne)
      (fun _ => hchunk.trans hfit) hliteral
  case isFalse =>
    exact (h.finishError d.res).withDecoded (len := 0) (fun _ => ⟨rfl, rfl⟩) (fun hne => absurd rfl hne)
      fun _ => Nat.zero_le _

theorem of_decodeFinish {t : State} (h : s.Inv) (hd : DecodeFinish s t) : t.Inv := by
  rcases hd with ⟨-, rfl⟩ | ⟨hfit, d, hd, rfl⟩
  · exact h.finishError _
  · exact h.finishDecode hd hfit

/-! ### An instruction, and an access of the host -/

/-- Every instruction keeps the invariant. -/
theorem of_exec {i : Instr} {t : State} (h : s.Inv) (hexec : exec i s = .next t) : t.Inv := by
  obtain ⟨-, hgreeting, h127, -⟩ := Config.wf_bounds h.cfgWf
  rcases exec_next_cases hexec with ⟨-, rfl⟩ | ⟨-, rfl⟩ | ⟨-, r, -, rfl⟩ | ⟨-, -, key, -, rfl⟩ |
    ⟨-, payload, hle, rfl⟩ | ⟨-, -, -, key, -, rfl⟩ | ⟨-, -, hd⟩ | ⟨-, ⟨-, rfl⟩ | ⟨-, u, hd, rfl⟩⟩
  · exact h
  · exact h.noOutputs .ok .closed
  · exact h.finishError r
  · exact h.finishOutput (by rw [acceptToken_length]; omega) (.inl rfl)
  · exact h.finishOutput (by rw [textFrame_length]; omega) (.inl rfl)
  · have hlen : (upgradeHeader (acceptToken key) ++ textFrame s.cfg.greeting).length = 132 + s.cfg.greeting.length := by
      rw [List.length_append, upgradeHeader_length (acceptToken_length key), textFrame_length]; omega
    exact (h.finishOutput (by omega) (.inr ⟨rfl, hlen⟩)).withSession .opened
  · exact h.of_decodeFinish hd
  · exact h.finishError _
  · exact (h.of_decodeFinish hd).closeOnResult

/-- The host's side of the port and IN_LEN are no part of the invariant. -/
theorem withHostSide (h : s.Inv) (p : List HostAccess) (v len : Word) :
    ({ s with program := p, readData := v, inLen := len } : State).Inv := { h with }

theorem withInputByte (h : s.Inv) {i : Nat} (hi : i < s.cfg.bufCap) (b : Byte) :
    ({ s with inBuf := Memory.write s.inBuf i b } : State).Inv :=
  { h with
    inWf := Memory.wf_write i b h.inWf
    inBelow := Memory.below_write b hi h.inBelow }

end State.Inv

/-- Settles O19: each access but a CMD write stores at most one field, and a CMD write is an instruction. -/
theorem stepKeepsTheInvariant : Obligations.StepKeepsTheInvariant := by
  intro s t h hstep
  have hside := h.withHostSide
  rcases step_next_cases hstep with ⟨-, rfl⟩ | ⟨a, rest, -, hcases⟩
  · exact h
  · rcases hcases with ⟨-, rfl⟩ | ⟨addr, n, -, rfl⟩ | ⟨v, -, rfl⟩ | ⟨i, v, hi, -, -, rfl⟩ | ⟨addr, n, v, -, -, rfl⟩ |
      ⟨w, -, hexec⟩
    · exact (hside rest s.readData s.inLen).applyReset
    · exact hside rest (s.hostRead addr) s.inLen
    · exact hside rest s.readData v
    · exact (hside rest s.readData s.inLen).withInputByte hi _
    · exact hside rest s.readData s.inLen
    · exact (hside rest s.readData s.inLen).of_exec hexec

end Sys2Proof.Machine
end

section
/-! PROOF. What no instruction writes, and what an answer does not depend on: the input and the host's side (R26, R34),
the DEC_ registers outside a decode (R29 to R31), OUT_BUF from OUT_LEN on (R35), and the outputs of an earlier command
(R38): O22, O23, O24, O26. -/

namespace Sys2Proof.Machine

open Sys2Proof

/-! ### The input and the host's side (R26, R34) -/

/-- What commands leave alone: the input, the parameters, the epoch and the host's side of the port. -/
def State.KeepsInput (s t : State) : Prop :=
  t.inBuf = s.inBuf ∧ t.inLen = s.inLen ∧ t.cfg = s.cfg ∧ t.epoch = s.epoch ∧ t.program = s.program ∧
    t.readData = s.readData

theorem DecodeFinish.keepsInput {s t : State} (h : DecodeFinish s t) : s.KeepsInput t := by
  unfold State.KeepsInput
  rcases h with ⟨-, rfl⟩ | ⟨-, d, -, rfl⟩ <;> simp

/-- Settles O22: only a decode's update needs its field lemmas, the others leave these fields by definition. -/
theorem commandsNeverWriteTheInput : Obligations.CommandsNeverWriteTheInput := by
  intro i s t h
  change s.KeepsInput t
  rcases exec_next_cases h with ⟨-, rfl⟩ | ⟨-, rfl⟩ | ⟨-, r, -, rfl⟩ | ⟨-, -, key, -, rfl⟩ | ⟨-, payload, -, rfl⟩ |
    ⟨-, -, -, key, -, rfl⟩ | ⟨-, -, hd⟩ | ⟨-, ⟨-, rfl⟩ | ⟨-, u, hd, rfl⟩⟩
  case inr.inr.inr.inr.inr.inr.inl => exact hd.keepsInput
  case inr.inr.inr.inr.inr.inr.inr.inr => simpa [State.KeepsInput] using hd.keepsInput
  all_goals exact ⟨rfl, rfl, rfl, rfl, rfl, rfl⟩

/-! ### The DEC_ registers (R29 to R31) -/

/-- Settles O23: the last two cases of `exec_next_cases` are the instructions that run a decode. -/
theorem decRegistersWrittenByDecodeOnly : Obligations.DecRegistersWrittenByDecodeOnly := by
  intro i s t h hno
  rcases exec_next_cases h with ⟨-, rfl⟩ | ⟨-, rfl⟩ | ⟨-, r, -, rfl⟩ | ⟨-, -, key, -, rfl⟩ | ⟨-, payload, -, rfl⟩ |
    ⟨-, -, -, key, -, rfl⟩ | ⟨hruns, -, -⟩ | ⟨rfl, -⟩
  case inr.inr.inr.inr.inr.inr.inl => exact absurd (hno.symm.trans hruns) nofun
  case inr.inr.inr.inr.inr.inr.inr => exact absurd hno nofun
  all_goals exact ⟨rfl, rfl, rfl, rfl⟩

/-! ### OUT_BUF from OUT_LEN on (R35) -/

/-- OUT_BUF of `t` reads as that of `s` from OUT_LEN of `t` on. -/
def State.KeepsBeyondOutLen (s t : State) : Prop :=
  ∀ j, t.outLen.toNat ≤ j → Memory.read t.outBuf j = Memory.read s.outBuf j

theorem State.KeepsBeyondOutLen.withSession {s t : State} (h : s.KeepsBeyondOutLen t) (ses : Session) :
    s.KeepsBeyondOutLen { t with session := ses } := h

/-- An output whose length OUT_LEN can count ends at OUT_LEN. -/
theorem finishOutput_keepsBeyondOutLen {s : State} {bs : List Byte} {aux : Word} (h : bs.length < 2 ^ 32) :
    s.KeepsBeyondOutLen (s.finishOutput bs aux) := by
  intro j hj
  rw [State.finishOutput_outLen, BitVec.toNat_ofNat, Nat.mod_eq_of_lt h] at hj
  rw [State.finishOutput_outBuf, Memory.read_writeBytes_zero, if_neg (by omega)]

theorem DecodeFinish.keepsBeyondOutLen {s t : State} (h : DecodeFinish s t) : s.KeepsBeyondOutLen t := by
  intro j hj
  rcases h with ⟨-, rfl⟩ | ⟨-, d, hd, rfl⟩
  · rfl
  · by_cases hok : d.res = .ok
    · obtain ⟨-, hpay, hchunk, -⟩ := hd.of_ok hok
      rw [State.finishDecode_outLen, if_pos hok, BitVec.toNat_setWidth, Nat.mod_eq_of_lt (by omega)] at hj
      rw [State.finishDecode_outBuf, if_pos hok, Memory.read_writeBytes_zero, if_neg (by omega)]
    · rw [State.finishDecode_outBuf, if_neg hok]

/-- Settles O24: an instruction either leaves OUT_BUF or writes its output from index 0 on. -/
theorem outputBufferBeyondOutLenUnchanged : Obligations.OutputBufferBeyondOutLenUnchanged := by
  intro i s t hwf h
  change s.KeepsBeyondOutLen t
  obtain ⟨hgreeting, -⟩ := Config.wf_bounds hwf
  rcases exec_next_cases h with ⟨-, rfl⟩ | ⟨-, rfl⟩ | ⟨-, r, -, rfl⟩ | ⟨-, -, key, -, rfl⟩ | ⟨-, payload, hle, rfl⟩ |
    ⟨-, -, -, key, -, rfl⟩ | ⟨-, -, hd⟩ | ⟨-, ⟨-, rfl⟩ | ⟨-, u, hd, rfl⟩⟩
  · exact fun _ _ => rfl
  · exact fun _ _ => rfl
  · exact fun _ _ => rfl
  · exact finishOutput_keepsBeyondOutLen (by rw [acceptToken_length]; omega)
  · exact finishOutput_keepsBeyondOutLen (by rw [textFrame_length]; omega)
  · refine (finishOutput_keepsBeyondOutLen ?_).withSession .opened
    rw [List.length_append, upgradeHeader_length (acceptToken_length key), textFrame_length]
    omega
  · exact hd.keepsBeyondOutLen
  · exact fun _ _ => rfl
  · simpa [State.KeepsBeyondOutLen] using hd.keepsBeyondOutLen

/-! ### Outputs depend on the parameters, the session and the input only (R38) -/

/-- The same parameters, session and input; everything else may differ. -/
structure SameInput (s s' : State) : Prop where
  cfg     : s'.cfg = s.cfg
  session : s'.session = s.session
  inLen   : s'.inLen = s.inLen
  inBuf   : s'.inBuf = s.inBuf

/-- The same result, session, lengths and output bytes. -/
def SameOutputs (t t' : State) : Prop :=
  t'.status = t.status ∧ t'.session = t.session ∧ t'.outLen = t.outLen ∧ t'.auxLen = t.auxLen ∧
    ∀ j, j < t.outLen.toNat → Memory.read t'.outBuf j = Memory.read t.outBuf j

section
variable {s s' : State}

theorem SameInput.inputIs (h : SameInput s s') {bs : List Byte} (hi : s.InputIs bs) : s'.InputIs bs := by
  rw [State.InputIs, h.inLen, h.inBuf]
  exact hi

theorem SameOutputs.failed (h : s'.session = s.session) (r : Result) : SameOutputs (s.failed r) (s'.failed r) :=
  ⟨rfl, h, rfl, rfl, nofun⟩

/-- Output bytes are the command's, whatever the buffer held. -/
theorem SameOutputs.finishOutput (h : s'.session = s.session) (bs : List Byte) (aux : Word) :
    SameOutputs (s.finishOutput bs aux) (s'.finishOutput bs aux) := by
  refine ⟨rfl, h, rfl, rfl, fun j hj => read_writeBytes_congr _ _ bs (hj.trans_le ?_)⟩
  rw [State.finishOutput_outLen, BitVec.toNat_ofNat]
  exact Nat.mod_le _ _

theorem SameOutputs.finishDecode (h : s'.session = s.session) {d : Decoded} (hd : DecodedOk s d) :
    SameOutputs (s.finishDecode d) (s'.finishDecode d) := by
  refine ⟨by simp, by simp [h], by simp, by simp, fun j hj => ?_⟩
  rw [State.finishDecode_outBuf, State.finishDecode_outBuf]
  rw [State.finishDecode_outLen] at hj
  by_cases hok : d.res = .ok
  · obtain ⟨-, hpay, -⟩ := hd.of_ok hok
    rw [if_pos hok] at hj ⊢
    rw [if_pos hok]
    refine read_writeBytes_congr _ _ _ (hj.trans_le ?_)
    rw [BitVec.toNat_setWidth, hpay]
    exact Nat.mod_le _ _
  · rw [if_neg hok] at hj
    exact absurd hj nofun

theorem SameOutputs.withSession {t t' : State} (h : SameOutputs t t') (ses : Session) :
    SameOutputs { t with session := ses } { t' with session := ses } := by
  obtain ⟨hstatus, -, hrest⟩ := h
  exact ⟨hstatus, rfl, hrest⟩

theorem SameOutputs.closeOnResult {t t' : State} (h : SameOutputs t t') :
    SameOutputs t.closeOnResult t'.closeOnResult := by
  obtain ⟨hstatus, hsession, hrest⟩ := h
  simpa [SameOutputs, hstatus, hsession] using hrest

theorem SameInput.execSign (h : SameInput s s') {t : State} (he : execSign s = .next t) :
    ∃ t', Machine.execSign s' = .next t' ∧ SameOutputs t t' := by
  rcases checkLength_next_iff.1 he with ⟨hlong, rfl⟩ | ⟨hfit, hread⟩
  · exact ⟨_, checkLength_long (by rwa [h.cfg, h.inLen]), .failed h.session _⟩
  · obtain ⟨key, hkey, hout⟩ := withRead_next_iff.1 hread
    cases hout
    exact ⟨_, execSign_of_input (by rwa [h.cfg, h.inLen]) (h.inputIs (readInput_ok_iff.1 hkey)),
      .finishOutput h.session _ _⟩

theorem SameInput.execEncode (h : SameInput s s') {t : State} (he : execEncode s = .next t) :
    ∃ t', Machine.execEncode s' = .next t' ∧ SameOutputs t t' := by
  simp only [execEncode_next_iff, h.cfg, h.inLen] at he ⊢
  rcases he with ⟨hlong, rfl⟩ | ⟨hfit, hlong, rfl⟩ | ⟨hfit, hshort, payload, hi, rfl⟩
  · exact ⟨_, .inl ⟨hlong, rfl⟩, .failed h.session _⟩
  · exact ⟨_, .inr (.inl ⟨hfit, hlong, rfl⟩), .failed h.session _⟩
  · exact ⟨_, .inr (.inr ⟨hfit, hshort, payload, h.inputIs hi, rfl⟩), .finishOutput h.session _ _⟩

theorem SameInput.execUpgrade (h : SameInput s s') {t : State} (he : execUpgrade true s = .next t) :
    ∃ t', Machine.execUpgrade true s' = .next t' ∧ SameOutputs t t' := by
  by_cases hs : s.session = .handshaking
  · rcases checkLength_next_iff.1 ((if_neg (not_not.2 hs)).symm.trans he) with ⟨hlong, rfl⟩ | ⟨hfit, hread⟩
    · exact ⟨_, execUpgrade_key_long (h.session.trans hs) (by rwa [h.cfg, h.inLen]), .failed h.session _⟩
    · obtain ⟨key, hkey, hout⟩ := withRead_next_iff.1 hread
      cases hout
      refine ⟨_, execUpgrade_of_input (h.session.trans hs) (by rwa [h.cfg, h.inLen])
        (h.inputIs (readInput_ok_iff.1 hkey)), ?_⟩
      rw [h.cfg]
      exact (SameOutputs.finishOutput h.session _ _).withSession .opened
  · rw [execUpgrade_not_handshaking hs] at he
    cases he
    exact ⟨_, execUpgrade_not_handshaking (by rwa [h.session]), .failed h.session _⟩

/-- A decode gives, besides its outputs, the same DEC_ registers, if its chunk fits the buffer. -/
theorem SameInput.decodeChunk (h : SameInput s s') {t : State} (he : decodeChunk s = .next t) :
    ∃ t', Machine.decodeChunk s' = .next t' ∧ SameOutputs t t' ∧ (s.inLen.toNat ≤ s.cfg.bufCap →
      t'.decOpcode = t.decOpcode ∧ t'.decMaskKey = t.decMaskKey ∧ t'.decLen = t.decLen) := by
  rcases decodeChunk_depends h.cfg h.inLen h.inBuf he with ⟨hlong, rfl, he'⟩ | ⟨-, d, hd, rfl, he'⟩
  · exact ⟨_, he', .failed h.session _, fun hfit => by omega⟩
  · exact ⟨_, he', .finishDecode h.session hd, fun _ => by simp [State.decLen]⟩

theorem SameInput.execFeed (h : SameInput s s') {t : State} (he : execFeed s = .next t) :
    ∃ t', Machine.execFeed s' = .next t' ∧ SameOutputs t t' := by
  by_cases hs : s.session = .opened
  · rw [execFeed_opened hs] at he
    obtain ⟨u, hu, rfl⟩ := closeOnResult_next_iff.1 he
    obtain ⟨u', hu', hsame, -⟩ := h.decodeChunk hu
    rw [execFeed_opened (h.session.trans hs), hu']
    exact ⟨_, rfl, hsame.closeOnResult⟩
  · rw [execFeed_not_opened hs] at he
    cases he
    exact ⟨_, execFeed_not_opened (by rwa [h.session]), .failed h.session _⟩

end

/-- Settles O26, command by command. -/
theorem outputsDependOnTheInputOnly : Obligations.OutputsDependOnTheInputOnly := by
  intro i s s' t hi hcfg hsession hlen hbuf _ he
  have h : SameInput s s' := ⟨hcfg, hsession, hlen, hbuf⟩
  have hrest : ∃ t', exec i s' = .next t' ∧ SameOutputs t t' ∧ (i = .decode → s.inLen.toNat ≤ s.cfg.bufCap →
      t'.decOpcode = t.decOpcode ∧ t'.decMaskKey = t.decMaskKey ∧ t'.decLen = t.decLen) := by
    rcases hi with rfl | rfl | rfl | rfl | rfl
    · exact (h.execSign he).imp fun _ ⟨he', hsame⟩ => ⟨he', hsame, nofun⟩
    · exact (h.execEncode he).imp fun _ ⟨he', hsame⟩ => ⟨he', hsame, nofun⟩
    · exact (h.decodeChunk he).imp fun _ ⟨he', hsame, hdec⟩ => ⟨he', hsame, fun _ => hdec⟩
    · exact (h.execUpgrade he).imp fun _ ⟨he', hsame⟩ => ⟨he', hsame, nofun⟩
    · exact (h.execFeed he).imp fun _ ⟨he', hsame⟩ => ⟨he', hsame, nofun⟩
  obtain ⟨t', he', ⟨hstatus, hses, hout, haux, hbytes⟩, hdec⟩ := hrest
  exact ⟨t', he', hstatus, hses, hout, haux, hbytes, hdec⟩

end Sys2Proof.Machine
end

section
/-! PROOF. SHA-1's padding and message schedule (R101, R104), the shape of the accept token, and that base64 loses
nothing (R105, R106): O32, O33, O34, O35. -/

namespace Sys2Proof.Machine

open Sys2Proof

/-! ### The padded message and the words of a block (R101) -/

/-- The zero run fills up the last block. -/
theorem zeroPad_fills (n : Nat) : (n + 1 + zeroPad n + 8) % 64 = 0 := by
  unfold zeroPad; omega

/-- No shorter zero run does. -/
theorem zeroPad_least {n z : Nat} (h : z < zeroPad n) : (n + 1 + z + 8) % 64 ≠ 0 := by
  unfold zeroPad at h; omega

/-- The low `k` digits of a number to the base 256, the most significant one first. -/
theorem beNat_digits (n : Nat) : ∀ k : Nat,
    beNat ((List.range k).reverse.map fun j => BitVec.ofNat 8 (n / 256 ^ j)) = n % 256 ^ k
  | 0 => (Nat.mod_one n).symm
  | k + 1 => by
    rw [List.range_succ, List.reverse_append, List.reverse_singleton, List.singleton_append, List.map_cons, beNat_cons,
      beNat_digits n k, List.length_map, List.length_reverse, List.length_range, BitVec.toNat_ofNat,
      Nat.mod_pow_succ (b := 256), Nat.mul_comm, Nat.add_comm]

/-- `be64` loses no number that 8 bytes can hold (R101). -/
theorem beNat_be64 {n : Nat} (h : n < 2 ^ 64) : beNat (be64 n) = n := by
  exact (beNat_digits n 8).trans (Nat.mod_eq_of_lt h)

/-- Settles O32: `zeroPad` is the zero run. -/
theorem sha1PaddingAndWords : Obligations.Sha1PaddingAndWords := by
  refine ⟨fun m hm => ?padding, fun block hlen => ?words⟩
  case padding =>
    refine ⟨zeroPad m.length, rfl, ?_, fun _ => zeroPad_least, be64_length _, beNat_be64 (by omega)⟩
    rw [sha1Pad_length, zeroPad_fills]
  case words => exact ⟨by rw [wordsBE_length, hlen], fun t ht => wordsBE_getElem? block t (by omega)⟩

/-! ### The message schedule (R104) -/

theorem schedule_length {block : List Byte} (h : block.length = 64) : (schedule block).length = 80 := by
  rw [schedule, List.length_reverse, extendSchedule_length, List.length_reverse, wordsBE_length, h]

/-- The schedule begins with the words of the block. -/
theorem schedule_eq_append (block : List Byte) : ∃ later, schedule block = wordsBE block ++ later := by
  obtain ⟨new, hnew, -⟩ := extendSchedule_append 64 (wordsBE block).reverse
  exact ⟨new.reverse, by rw [schedule, hnew, List.reverse_append, List.reverse_reverse]⟩

/-- Word `t` of the schedule, in the newest-first list that `schedule` reverses. -/
theorem schedule_getD {block : List Byte} (h : block.length = 64) {t : Nat} (ht : t < 80) :
    (schedule block).getD t 0 = (extendSchedule 64 (wordsBE block).reverse).getD (79 - t) 0 := by
  have hlen : (extendSchedule 64 (wordsBE block).reverse).length = 80 := by
    rw [← List.length_reverse]
    exact schedule_length h
  rw [schedule, List.getD_eq_getElem?_getD, List.getElem?_reverse (by omega), hlen, ← List.getD_eq_getElem?_getD]

/-- A word that `extendSchedule` adds is the rotated XOR of the words 3, 8, 14 and 16 before it (R104). -/
theorem extendSchedule_getD {n k : Nat} {ws : List Word} (h : k < n) :
    (extendSchedule n ws).getD k 0 =
      ((extendSchedule n ws).getD (k + 3) 0 ^^^ (extendSchedule n ws).getD (k + 8) 0 ^^^
        (extendSchedule n ws).getD (k + 14) 0 ^^^ (extendSchedule n ws).getD (k + 16) 0).rotateLeft 1 := by
  have hdrop : ∀ i j, ((extendSchedule n ws).drop i).getD j 0 = (extendSchedule n ws).getD (i + j) 0 := by
    intro i j
    simp only [List.getD_eq_getElem?_getD, List.getElem?_drop]
  have hk := hdrop k 0
  rw [extendSchedule_drop n k ws h, List.getD_cons_zero, nextWord, rotl_one, Nat.add_zero] at hk
  simp only [hdrop, Nat.add_assoc, Nat.reduceAdd] at hk
  exact hk.symm

/-- Settles O33: `79 - t` counts the words from the newest back. -/
theorem sha1ScheduleRecurrence : Obligations.Sha1ScheduleRecurrence := by
  intro block hlen
  have hwords : (wordsBE block).length = 16 := by rw [wordsBE_length, hlen]
  refine ⟨schedule_length hlen, fun t ht => ?blockWords, fun t h16 h80 => ?later⟩
  case blockWords =>
    obtain ⟨later, happend⟩ := schedule_eq_append block
    rw [happend, List.getD_append _ _ _ _ (by omega)]
  case later =>
    rw [schedule_getD hlen h80, schedule_getD hlen (by omega), schedule_getD hlen (by omega),
      schedule_getD hlen (by omega), schedule_getD hlen (by omega), extendSchedule_getD (by omega),
      show 79 - t + 3 = 79 - (t - 3) by omega, show 79 - t + 8 = 79 - (t - 8) by omega,
      show 79 - t + 14 = 79 - (t - 14) by omega, show 79 - t + 16 = 79 - (t - 16) by omega]

/-! ### The accept token (R105, R106) -/

theorem base64Of_ascii : ∀ v : Byte, (base64Of v).toNat < 128 := by decide

theorem base64_ascii : ∀ d : List Byte, ∀ c ∈ base64 d, c.toNat < 128
  | x :: y :: z :: rest => by
    simp only [base64, List.forall_mem_cons, base64Of_ascii, true_and]
    exact base64_ascii rest
  | [x, y] => by simp [base64, base64Of_ascii, base64Pad]
  | [x] => by simp [base64, base64Of_ascii, base64Pad]
  | [] => by simp [base64]

/-- Bytes that do not fill their last group of 3 end in a pad character. -/
theorem base64_ends_in_pad : ∀ {d : List Byte}, d.length % 3 ≠ 0 → ∃ p, base64 d = p ++ [base64Pad]
  | x :: y :: z :: rest, h => by
    obtain ⟨p, hp⟩ := base64_ends_in_pad (d := rest) (by simp only [List.length_cons] at h; omega)
    exact ⟨_ :: _ :: _ :: _ :: p, by rw [base64, hp]; rfl⟩
  | [x, y], _ => ⟨[_, _, _], rfl⟩
  | [x], _ => ⟨[_, _, _], rfl⟩

/-- Settles O34: 20 bytes leave 2 for their last group. -/
theorem acceptTokenShape : Obligations.AcceptTokenShape := by
  intro key
  refine ⟨sha1_length _, acceptToken_length key, ?_, base64_ascii _⟩
  have hlen := acceptToken_length key
  obtain ⟨p, hp⟩ := base64_ends_in_pad (d := sha1 (key ++ guid)) (by rw [sha1_length]; decide)
  rw [acceptToken, hp] at hlen ⊢
  have hp27 : p.length = 27 := by simpa using hlen
  rw [List.getD_append_right _ _ _ _ (by omega), hp27]
  rfl

/-! ### Base64 loses nothing (R105, R106) -/

/-- The alphabet has 64 different characters, and the pad character is none of them. -/
theorem base64Char_injective : ∀ v w : BitVec 6, base64Char v.toNat = base64Char w.toNat → v = w := by decide

theorem base64Of_ne_pad : ∀ v : Byte, base64Of v ≠ base64Pad := by decide

/-- Characters of the alphabet are equal only if their 6-bit numbers are. -/
theorem base64Of_injective {v w : Byte} {m n : Nat} (h : base64Of v = base64Of w) (hv : v.toNat = m) (hw : w.toNat = n)
    (hm : m < 64) (hn : n < 64) : m = n := by
  have hm6 : (BitVec.ofNat 6 m).toNat = m := (BitVec.toNat_ofNat ..).trans (Nat.mod_eq_of_lt hm)
  have hn6 : (BitVec.ofNat 6 n).toNat = n := (BitVec.toNat_ofNat ..).trans (Nat.mod_eq_of_lt hn)
  rw [base64Of, base64Of, hv, hw] at h
  have h6 := base64Char_injective (BitVec.ofNat 6 m) (BitVec.ofNat 6 n) (by rwa [hm6, hn6])
  exact hm6.symm.trans ((congrArg BitVec.toNat h6).trans hn6)

/-! The four 6-bit numbers of a group of 3 bytes, and those of a last group that lacks bytes. -/

theorem sextet1_toNat : ∀ x : Byte, (x >>> 2).toNat = x.toNat / 4 := by decide

theorem sextet2_last_toNat : ∀ x : Byte, ((x &&& 3) <<< 4).toNat = x.toNat % 4 * 16 := by decide

theorem sextet3_last_toNat : ∀ y : Byte, ((y &&& 15) <<< 2).toNat = y.toNat % 16 * 4 := by decide

theorem sextet4_toNat : ∀ z : Byte, (z &&& 63).toNat = z.toNat % 64 := by decide

theorem sextet2_toNat (x y : Byte) : (((x &&& 3) <<< 4) ||| (y >>> 4)).toNat = x.toNat % 4 * 16 + y.toNat / 16 := by
  have hor := Nat.shiftLeft_add_eq_or_of_lt (i := 4) (b := y.toNat / 16) (by omega) (x.toNat % 4)
  rw [BitVec.toNat_or, sextet2_last_toNat, BitVec.toNat_ushiftRight, Nat.shiftRight_eq_div_pow]
  rw [Nat.shiftLeft_eq] at hor
  exact hor.symm

theorem sextet3_toNat (y z : Byte) : (((y &&& 15) <<< 2) ||| (z >>> 6)).toNat = y.toNat % 16 * 4 + z.toNat / 64 := by
  have hor := Nat.shiftLeft_add_eq_or_of_lt (i := 2) (b := z.toNat / 64) (by omega) (y.toNat % 16)
  rw [BitVec.toNat_or, sextet3_last_toNat, BitVec.toNat_ushiftRight, Nat.shiftRight_eq_div_pow]
  rw [Nat.shiftLeft_eq] at hor
  exact hor.symm

/-- Groups of unequal size differ in a pad character; groups of equal size have equal 6-bit numbers. -/
theorem base64_injective : ∀ {d d' : List Byte}, base64 d = base64 d' → d = d'
  | x :: y :: z :: rest, x' :: y' :: z' :: rest', h => by
    simp only [base64, List.cons.injEq] at h
    obtain ⟨h1, h2, h3, h4, hrest⟩ := h
    have e1 := base64Of_injective h1 (sextet1_toNat x) (sextet1_toNat x') (by omega) (by omega)
    have e2 := base64Of_injective h2 (sextet2_toNat x y) (sextet2_toNat x' y') (by omega) (by omega)
    have e3 := base64Of_injective h3 (sextet3_toNat y z) (sextet3_toNat y' z') (by omega) (by omega)
    have e4 := base64Of_injective h4 (sextet4_toNat z) (sextet4_toNat z') (by omega) (by omega)
    obtain rfl : x = x' := BitVec.eq_of_toNat_eq (by omega)
    obtain rfl : y = y' := BitVec.eq_of_toNat_eq (by omega)
    obtain rfl : z = z' := BitVec.eq_of_toNat_eq (by omega)
    rw [base64_injective hrest]
  | [x, y], [x', y'], h => by
    simp only [base64, List.cons.injEq] at h
    obtain ⟨h1, h2, h3, -⟩ := h
    have e1 := base64Of_injective h1 (sextet1_toNat x) (sextet1_toNat x') (by omega) (by omega)
    have e2 := base64Of_injective h2 (sextet2_toNat x y) (sextet2_toNat x' y') (by omega) (by omega)
    have e3 := base64Of_injective h3 (sextet3_last_toNat y) (sextet3_last_toNat y') (by omega) (by omega)
    obtain rfl : x = x' := BitVec.eq_of_toNat_eq (by omega)
    obtain rfl : y = y' := BitVec.eq_of_toNat_eq (by omega)
    rfl
  | [x], [x'], h => by
    simp only [base64, List.cons.injEq] at h
    obtain ⟨h1, h2, -⟩ := h
    have e1 := base64Of_injective h1 (sextet1_toNat x) (sextet1_toNat x') (by omega) (by omega)
    have e2 := base64Of_injective h2 (sextet2_last_toNat x) (sextet2_last_toNat x') (by omega) (by omega)
    obtain rfl : x = x' := BitVec.eq_of_toNat_eq (by omega)
    rfl
  | [], [], _ => rfl
  | _ :: _ :: _ :: _, [_, _], h | [_, _], _ :: _ :: _ :: _, h | _ :: _ :: _ :: _, [_], h | [_], _ :: _ :: _ :: _, h
  | [_, _], [_], h | [_], [_, _], h => by
    simp [base64, base64Of_ne_pad, (base64Of_ne_pad _).symm] at h
  | _ :: _ :: _ :: _, [], h | [_, _], [], h | [_], [], h | [], _ :: _ :: _ :: _, h | [], [_, _], h | [], [_], h => by
    simp only [base64, reduceCtorEq] at h

/-- Settles O35. -/
theorem base64IsInjective : Obligations.Base64IsInjective := fun _ _ => base64_injective

end Sys2Proof.Machine
end

section
/-! PROOF. The commands in terms of the frame instructions they run (log entries 8 and 9), what TEXT_OUT emits, and
that the step after `withFetchWord` runs the word's instruction (log entry 7): O6, O7, O8, O38. -/

namespace Sys2Proof.Machine

open Sys2Proof

/-! ### DECODE and FEED run the instruction of byte 0 (R85, R160, R215) -/

/-- Settles O6: FEED shares the decode of DECODE. -/
theorem decodeRunsTheInstructionOfByte0 : Obligations.DecodeRunsTheInstructionOfByte0 := by
  intro s b hfit h6 hb
  have hdecode := decodeChunk_eq hfit h6 hb
  exact ⟨hdecode, fun hs => (execFeed_opened hs).trans (congrArg closeOnResult hdecode)⟩

/-! ### ENCODE runs TEXT_OUT (R82, R142) -/

/-- Settles O7: a length of at most 125 is a LEN7. -/
theorem encodeRunsTextOutOfInLen : Obligations.EncodeRunsTextOutOfInLen := by
  intro s hfit hshort
  have hlen7 : (BitVec.ofNat 7 s.inLen.toNat).toNat = s.inLen.toNat :=
    (BitVec.toNat_ofNat ..).trans (Nat.mod_eq_of_lt (by omega))
  refine (checkLength_fits hfit).trans ?_
  exact congrArg (emitTextFrame s) hlen7.symm

/-- Settles O38: both cases of `emitTextFrame`, its frame spelled with LEN7. -/
theorem textOutEmitsHeaderAndPayload : Obligations.TextOutEmitsHeaderAndPayload := by
  intro s l payload
  refine ⟨fun hlong => ?_, fun hshort hlen hread => ?_⟩
  · exact emitTextFrame_next_iff.2 (.inl ⟨hlong, rfl⟩)
  · have hslice : s.readInSlice 0 l.toNat = .ok payload :=
      (readInSlice_ok_iff ..).2 ⟨hlen, fun i hi => by rw [Nat.zero_add]; exact hread i hi⟩
    have hlen7 : l.setWidth 8 = BitVec.ofNat 8 payload.length := BitVec.eq_of_toNat_eq (by simp [hlen])
    rw [← hlen, hlen7, ← finishOutput_textFrame]
    exact emitTextFrame_next_iff.2 (.inr ⟨hshort, payload, hslice, rfl⟩)

/-! ### The step after `withFetchWord` (log entry 7) -/

theorem decodeTableWord_command {w : Nat} {i : Instr} (h : decodeTableWord 32 w = some i) :
    i = decodeCommandWord (BitVec.ofNat 32 w) := by
  unfold decodeTableWord tableCode at h
  split_ifs at h
  cases h; rfl

theorem decodeTableWord_frameByte {w : Nat} {i : Instr} (h : decodeTableWord 8 w = some i) :
    i = decodeFrameByte (BitVec.ofNat 8 w) := by
  unfold decodeTableWord tableCode at h
  split_ifs at h
  cases h; rfl

/-- A TEXT_OUT word that decodes has a LEN7 of at most 125 in its low 7 bits. -/
theorem decodeTableWord_outHeader {w : Nat} {i : Instr} (h : decodeTableWord 16 w = some i) :
    ∃ l : BitVec 7, i = .textOut l ∧ l.toNat = w % 128 ∧ l.toNat ≤ 125 := by
  unfold decodeTableWord tableCode at h
  split_ifs at h
  change (decodeOutHeader (BitVec.ofNat 8 (w / 256)) (BitVec.ofNat 8 w)).toOption = some i at h
  cases hd : decodeOutHeader (BitVec.ofNat 8 (w / 256)) (BitVec.ofNat 8 w) with
  | error e => rw [hd] at h; cases h
  | ok j =>
    rw [hd] at h
    cases h
    obtain ⟨-, -, hshort, rfl⟩ := decodeOutHeader_ok_iff.1 hd
    refine ⟨_, rfl, ?_, hshort⟩
    rw [len7Field_toNat, BitVec.toNat_ofNat]
    omega

section
variable (s : State) {w : Nat}

theorem withFetchWord_command {i : Instr} (h : decodeTableWord 32 w = some i) :
    s.withFetchWord 32 w = { s with program := wr .cmd (BitVec.ofNat 32 w) :: s.program } := by
  unfold State.withFetchWord
  rw [h]
  rfl

theorem withFetchWord_frameByte {i : Instr} (h : decodeTableWord 8 w = some i) :
    s.withFetchWord 8 w =
      { s with
        inBuf := Memory.writeBytes s.inBuf 0 (BitVec.ofNat 8 w :: List.replicate 13 0)
        inLen := 14
        program := cmd 3 :: s.program } := by
  unfold State.withFetchWord
  rw [h]
  rfl

theorem withFetchWord_outHeader {l : BitVec 7} (h : decodeTableWord 16 w = some (.textOut l)) :
    s.withFetchWord 16 w =
      { s with
        inBuf := Memory.writeBytes s.inBuf 0 (List.replicate l.toNat 0)
        inLen := l.setWidth 32
        program := cmd 2 :: s.program } := by
  unfold State.withFetchWord
  rw [h]
  rfl

end

/-- Settles O8: the placed access is a CMD write, of the word itself, of DECODE or of ENCODE. -/
theorem fetchedTableWordRuns : Obligations.FetchedTableWordRuns := by
  intro s w i hwf
  obtain ⟨-, -, hcap, -⟩ := Config.wf_bounds hwf
  refine ⟨fun h => ?command, fun h => ?frameByte, fun h => ?outHeader⟩
  case command =>
    rw [withFetchWord_command s h]
    exact step_cmd rfl (decodeTableWord_command h).symm
  case frameByte =>
    rw [withFetchWord_frameByte s h, decodeTableWord_frameByte h]
    have hfit : 14 ≤ s.cfg.bufCap := by omega
    refine (step_cmd (i := .decode) rfl rfl).trans (decodeChunk_eq hfit (show 6 ≤ 14 by decide) ?_)
    exact (Memory.read_writeBytes_zero ..).trans (if_pos (by simp))
  case outHeader =>
    obtain ⟨l, rfl, hl, hshort⟩ := decodeTableWord_outHeader h
    have hlen : (l.setWidth 32).toNat = l.toNat := by
      rw [BitVec.toNat_setWidth]
      exact Nat.mod_eq_of_lt (by omega)
    have hlen7 : BitVec.ofNat 7 (l.setWidth 32).toNat = l := by rw [hlen, BitVec.ofNat_toNat, BitVec.setWidth_eq]
    have hfit : l.toNat ≤ s.cfg.bufCap := by omega
    rw [withFetchWord_outHeader s h, ← hl, BitVec.ofNat_toNat]
    refine (step_cmd (i := .encode) rfl rfl).trans ?_
    refine (encodeRunsTextOutOfInLen _ (hlen.trans_le hfit) (hlen.trans_le hshort)).trans ?_
    exact congrArg (fun l' => exec (.textOut l') _) hlen7

end Sys2Proof.Machine
end

section
/-! PROOF. DECODE, FEED and the wire instructions by the class of byte 0 and by the header of a Text frame (R163 to
R168, R215): O40, O41, O43, O45, O46, O47. -/

namespace Sys2Proof.Machine

open Sys2Proof

/-! ### Close and Ignored frames (R163, R164) -/

section
variable {s : State} (hfit : s.inLen.toNat ≤ s.cfg.bufCap) (h6 : 6 ≤ s.inLen.toNat)
include hfit h6

theorem execClose_fits (fin : Bool) (rsv : BitVec 3) :
    execClose fin rsv s = .next (s.decodeFailed .closeSignal 8) :=
  (withChunk_fits hfit h6).trans (congrArg Host.Outcome.next (finishDecode_signal s _ _ (by decide)))

theorem ignoreFrame_fits (opc : BitVec 4) : ignoreFrame opc s = .next (s.decodeFailed .ignored opc) :=
  (withChunk_fits hfit h6).trans (congrArg Host.Outcome.next (finishDecode_signal s _ _ (by decide)))

end

/-- Settles O40: byte 0 selects CLOSE, and FEED closes on its result. -/
theorem closeFrameGivesCloseSignal : Obligations.CloseFrameGivesCloseSignal := by
  intro s hfit h6
  refine ⟨execClose_fits hfit h6, fun b hop hb => ?_⟩
  have hdecode : decodeChunk s = .next (s.decodeFailed .closeSignal 8) := by
    rw [decodeChunk_eq hfit h6 hb, decodeFrameByte_close hop]
    exact execClose_fits hfit h6 (finBit b) (rsvBits b)
  exact ⟨hdecode, fun hs => execFeed_closes hs hdecode rfl⟩

/-- Settles O41: byte 0 selects an instruction of the Ignored class, and FEED stays open on its result. -/
theorem otherOpcodesAreIgnored : Obligations.OtherOpcodesAreIgnored := by
  intro s hfit h6
  have hignore := ignoreFrame_fits hfit h6
  refine ⟨fun fin rsv => ?wire, fun b h1 h8 hb => ?decode⟩
  case wire =>
    exact ⟨hignore 0x0, hignore 0x2, hignore 0x3, hignore 0x4, hignore 0x5, hignore 0x6, hignore 0x7, hignore 0x9,
      hignore 0xA, hignore 0xB, hignore 0xC, hignore 0xD, hignore 0xE, hignore 0xF⟩
  case decode =>
    have hnibble : opcodeNibble b = BitVec.ofNat 4 b.toNat :=
      BitVec.eq_of_toNat_eq (by rw [opcodeNibble_toNat, BitVec.toNat_ofNat])
    have hdecode : decodeChunk s = .next (s.decodeFailed .ignored (BitVec.ofNat 4 b.toNat)) := by
      rw [decodeChunk_eq hfit h6 hb, ← runFrame_eq_exec, runFrame_ignored h1 h8, hnibble, hignore]
    exact ⟨hdecode, fun hs => execFeed_stays hs hdecode rfl⟩

/-! ### The header of a Text frame (R165 to R168) -/

section
variable {s : State} {b0 b1 : Byte}

/-- TEXT is DecodeCore from byte 1 on, once the chunk checks have passed. -/
theorem execText_fits (hfit : s.inLen.toNat ≤ s.cfg.bufCap) (h6 : 6 ≤ s.inLen.toNat) (fin : Bool) (rsv : BitVec 3) :
    execText fin rsv s = withRead (decodeText s s.inLen.toNat) fun d => .next (s.finishDecode d) :=
  withChunk_fits hfit h6

/-- So is DECODE, on a byte 0 with the opcode of Text. -/
theorem decodeChunk_text (hfit : s.inLen.toNat ≤ s.cfg.bufCap) (h6 : 6 ≤ s.inLen.toNat)
    (hb0 : Memory.read s.inBuf 0 = some b0) (hop : b0.toNat % 16 = 1) :
    decodeChunk s = withRead (decodeText s s.inLen.toNat) fun d => .next (s.finishDecode d) := by
  rw [decodeChunk_eq hfit h6 hb0, decodeFrameByte_text hop]
  exact execText_fits hfit h6 (finBit b0) (rsvBits b0)

/-- A signal of DecodeCore is the answer to any read of it. -/
theorem withRead_signal {r : Result} {opc : BitVec 4} (hr : r ≠ .ok)
    (h : decodeText s s.inLen.toNat = .ok (.signal r opc)) :
    (withRead (decodeText s s.inLen.toNat) fun d => .next (s.finishDecode d)) = .next (s.decodeFailed r opc) := by
  rw [h, ← finishDecode_signal s r opc hr]
  rfl

theorem decodeText_unmasked (n : Nat) (hb1 : Memory.read s.inBuf 1 = some b1) (hc : s.cfg.checkMask = true)
    (hlt : b1.toNat < 128) : decodeText s n = .ok (.signal .unmaskedClientFrame 1) := by
  unfold decodeText
  rw [(readIn_ok_iff s 1 b1).2 hb1]
  exact if_pos (by rw [hc, maskBit_eq, decide_eq_false (by omega)]; rfl)

/-- Past the mask check the form of the header decides, and its length is the payload offset (R167, R168). -/
theorem decodeText_maskChecked (n : Nat) (hb1 : Memory.read s.inBuf 1 = some b1)
    (hm : s.cfg.checkMask = true → 128 ≤ b1.toNat) :
    decodeText s n =
      if n < payloadOffset s.cfg.lenMode b1 then .ok (.signal .truncatedFrame 1)
      else s.readInSlice 2 (lenForm s.cfg.lenMode (len7Field b1)).extBytes >>= fun ext =>
        decodePayload s n (lenForm s.cfg.lenMode (len7Field b1))
          ((lenForm s.cfg.lenMode (len7Field b1)).length (len7Field b1) ext) := by
  have hmask : ¬ (s.cfg.checkMask && !maskBit b1) = true := by rw [maskBit_eq]; simpa using hm
  unfold decodeText
  rw [(readIn_ok_iff s 1 b1).2 hb1, ← headerBytes_lenForm]
  exact if_neg hmask

theorem decodeText_shortHeader {n : Nat} (hb1 : Memory.read s.inBuf 1 = some b1)
    (hm : s.cfg.checkMask = true → 128 ≤ b1.toNat) (hn : n < payloadOffset s.cfg.lenMode b1) :
    decodeText s n = .ok (.signal .truncatedFrame 1) :=
  (decodeText_maskChecked n hb1 hm).trans (if_pos hn)

end

/-- Settles O47: each extended form has a payload offset beyond the chunk. -/
theorem shortExtendedHeaderIsTruncated : Obligations.ShortExtendedHeaderIsTruncated := by
  intro s b0 b1 fin rsv hfit h6 hb0 hb1 hop hm hrfc hshort
  have hoffset : s.inLen.toNat < payloadOffset s.cfg.lenMode b1 := by
    rw [← headerBytes_lenForm, hrfc]
    rcases hshort with ⟨h126, h8⟩ | ⟨h127, h14⟩
    · rw [lenForm_ext16 h126]; exact h8
    · rw [lenForm_ext64 h127]; exact h14
  have hsignal := withRead_signal (by decide) (decodeText_shortHeader hb1 hm hoffset)
  exact ⟨(decodeChunk_text hfit h6 hb0 hop).trans hsignal, (execText_fits hfit h6 fin rsv).trans hsignal⟩

/-! ### The mask bit (R166) -/

/-- A decode reads byte 1 in a Text frame only. -/
theorem decodeChunk_update_of_text {s : State} {m : Memory} (h0 : Memory.read m 0 = Memory.read s.inBuf 0)
    (ht : decodeText { s with inBuf := m } s.inLen.toNat = decodeText s s.inLen.toNat) :
    SameButInput m (decodeChunk s) (decodeChunk { s with inBuf := m }) := by
  refine .withChunk fun _ _ => .withRead (readIn_congr h0) fun b => ?_
  unfold runFrame
  split
  case h_2 => exact execText_update (fin := finBit b) (rsv := rsvBits b) fun _ => ht
  case h_9 => exact execClose_update (fin := finBit b) (rsv := rsvBits b)
  all_goals exact ignoreFrame_update

theorem len7Field_flipMask : ∀ b1 : Byte, len7Field (b1 ^^^ 0x80) = len7Field b1 := by decide

/-- Without CHECK_MASK a Text frame decodes as with the mask bit flipped. -/
theorem decodeText_flipMask {s : State} {b1 : Byte} (hb1 : Memory.read s.inBuf 1 = some b1)
    (hc : s.cfg.checkMask = false) (n : Nat) :
    decodeText { s with inBuf := Memory.write s.inBuf 1 (b1 ^^^ 0x80) } n = decodeText s n :=
  decodeText_update hb1 (Memory.read_write_same ..) (len7Field_flipMask b1) (fun h => absurd (hc.symm.trans h) nofun)
    fun _ _ _ => Memory.read_write_other _ _ (by omega)

/-- Settles O43: the check is the first thing after byte 1, and without it only LEN7 of byte 1 counts. -/
theorem maskBitIsCheckedOnlyUnderCheckMask : Obligations.MaskBitIsCheckedOnlyUnderCheckMask := by
  intro s b1 fin rsv hfit h6 hb1
  refine ⟨fun hc hlt => ?checked, fun hc => ?unchecked⟩
  case checked =>
    have hsignal := withRead_signal (by decide) (decodeText_unmasked s.inLen.toNat hb1 hc hlt)
    refine ⟨(execText_fits hfit h6 fin rsv).trans hsignal, fun b0 hb0 hop => ?_⟩
    have hdecode := (decodeChunk_text hfit h6 hb0 hop).trans hsignal
    exact ⟨hdecode, fun hs => execFeed_closes hs hdecode rfl⟩
  case unchecked =>
    intro m i hi
    have htext := decodeText_flipMask hb1 hc s.inLen.toNat
    have hdecode : SameButInput m (decodeChunk s) (decodeChunk { s with inBuf := m }) :=
      decodeChunk_update_of_text (Memory.read_write_other _ _ (by omega)) htext
    rcases hi with rfl | rfl | rfl
    · exact hdecode
    · exact execFeed_update hdecode
    · exact execText_update (fin := fin) (rsv := rsv) fun _ => htext

/-! ### The extended length forms (R168) -/

/-- A 16-bit length, written out (R87). -/
theorem textLength_pair (b1 l0 l1 : Byte) : textLength b1 [l0, l1] = l0.toNat * 256 + l1.toNat := by
  rw [textLength, if_neg (by simp), ← beNat_eq_sum, beNat_pair]

/-- A 64-bit length, written out (R87). -/
theorem textLength_eight (b1 : Byte) {ext : List Byte} (h : ext.length = 8) :
    textLength b1 ext = ((List.range 8).map fun j => (ext.getD j 0).toNat * 2 ^ (8 * (7 - j))).sum := by
  rw [textLength, if_neg (List.ne_nil_of_length_pos (by omega)), h]

/-- Settles O45: the extended length is two bytes. -/
theorem textFrameWith16BitLength : Obligations.TextFrameWith16BitLength := by
  intro s b0 b1 l0 l1 k0 k1 k2 k3 masked rest fin rsv hi hfit hop hm hrfc h126 hl
  have hext : [l0, l1].length = (lenForm s.cfg.lenMode (len7Field b1)).extBytes := by
    rw [hrfc, lenForm_ext16 h126]; rfl
  obtain ⟨hdecode, htext⟩ := decode_payloadInChunk hi hfit hop hm hext (hl.trans (textLength_pair b1 l0 l1).symm)
  exact ⟨hdecode, htext fin rsv, fun hs => execFeed_stays hs hdecode rfl⟩

/-- Settles O46: the extended length is eight bytes. -/
theorem textFrameWith64BitLength : Obligations.TextFrameWith64BitLength := by
  intro s b0 b1 k0 k1 k2 k3 ext masked rest fin rsv hi hfit hop hm hrfc h127 h8 hl
  have hext : ext.length = (lenForm s.cfg.lenMode (len7Field b1)).extBytes := by
    rw [hrfc, lenForm_ext64 h127]; exact h8
  rw [List.append_assoc _ masked rest] at hi
  obtain ⟨hdecode, htext⟩ := decode_payloadInChunk hi hfit hop hm hext (hl.trans (textLength_eight b1 h8).symm)
  exact ⟨hdecode, htext fin rsv, fun hs => execFeed_stays hs hdecode rfl⟩

end Sys2Proof.Machine
end

section
/-! PROOF. What an OK decode says of its chunk (R167 to R171), that a written chunk ends in one of five results (R173),
and where a decode of an unwritten one stops (R274): O49, O51, O59. -/

namespace Sys2Proof.Machine

open Sys2Proof

/-! ### A decode that finishes OK -/

section
variable {s : State}

/-- Only a Text frame in a chunk of 6 to BUF_CAP bytes decodes OK. -/
theorem decodeChunk_ok {t : State} (h : decodeChunk s = .next t) (hok : t.status = .ok) :
    6 ≤ s.inLen.toNat ∧ ∃ d, decodeText s s.inLen.toNat = .ok d ∧ d.res = .ok ∧ t = s.finishDecode d := by
  rcases withChunk_next_iff.1 h with ⟨-, rfl⟩ | ⟨-, -, rfl⟩ | ⟨hfit, h6, hread⟩
  · cases hok
  · rw [State.finishDecode_status] at hok; cases hok
  · obtain ⟨b, -, hframe⟩ := withRead_next_iff.1 hread
    by_cases h1 : b.toNat % 16 = 1
    · rw [runFrame_eq_exec, decodeFrameByte_text h1] at hframe
      obtain ⟨d, hd, ht⟩ := withRead_next_iff.1 ((execText_fits hfit h6 (finBit b) (rsvBits b)).symm.trans hframe)
      cases ht
      exact ⟨h6, d, hd, by rwa [State.finishDecode_status] at hok, rfl⟩
    · by_cases h8 : b.toNat % 16 = 8
      · rw [runFrame_eq_exec, decodeFrameByte_close h8] at hframe
        cases (execClose_fits hfit h6 (finBit b) (rsvBits b)).symm.trans hframe
        cases hok
      · rw [runFrame_ignored h1 h8, ignoreFrame_fits hfit h6] at hframe
        cases hframe
        cases hok

/-- The offsets of a header form, in terms of its payload offset (R84). -/
theorem lenForm_offsets (mode : LenMode) (b1 : Byte) :
    (lenForm mode (len7Field b1)).keyOffset = payloadOffset mode b1 - 4 ∧
      (lenForm mode (len7Field b1)).extBytes = payloadOffset mode b1 - 6 ∧ 6 ≤ payloadOffset mode b1 := by
  rw [← headerBytes_lenForm]
  cases lenForm mode (len7Field b1) <;> decide

/-- What DecodeCore read when it returned OK: the header of a Text frame up to the payload offset, and the payload. -/
theorem decodeText_ok_reads {n : Nat} {d : Decoded} (h : decodeText s n = .ok d) (hok : d.res = .ok) :
    ∃ b1 ext masked, Memory.read s.inBuf 1 = some b1 ∧
      s.readInSlice 2 (payloadOffset s.cfg.lenMode b1 - 6) = .ok ext ∧
      s.readKey (payloadOffset s.cfg.lenMode b1 - 4) = .ok d.key ∧
      s.readInSlice (payloadOffset s.cfg.lenMode b1) d.len.toNat = .ok masked ∧
      payloadOffset s.cfg.lenMode b1 + d.len.toNat ≤ n ∧ d.len.toNat = textLength b1 ext ∧
      d.pay = unmask d.key masked := by
  cases hb1 : Memory.read s.inBuf 1 with
  | none =>
    unfold decodeText at h
    rw [readIn_none hb1] at h; cases h
  | some b1 =>
    obtain ⟨hkeyOffset, hextBytes, -⟩ := lenForm_offsets s.cfg.lenMode b1
    have hpayload := (lenForm s.cfg.lenMode (len7Field b1)).keyOffset_add.trans (headerBytes_lenForm s.cfg.lenMode b1)
    by_cases hm : s.cfg.checkMask = true → 128 ≤ b1.toNat
    case neg =>
      obtain ⟨hc, hlt⟩ := Classical.not_imp.1 hm
      rw [decodeText_unmasked n hb1 hc (by omega)] at h
      cases h; cases hok
    rw [decodeText_maskChecked n hb1 hm] at h
    split at h
    case isTrue => cases h; cases hok
    case isFalse hn =>
      cases hext : s.readInSlice 2 (lenForm s.cfg.lenMode (len7Field b1)).extBytes with
      | error e => rw [hext] at h; cases h
      | ok ext =>
        rw [hext] at h
        have hlen := length_lenForm ((readInSlice_ok_iff ..).1 hext).1
        rcases decodePayload_ok h with ⟨rfl, -⟩ | ⟨key, masked, hkey, hmasked, hfits, rfl⟩
        · cases hok
        · rw [hkeyOffset] at hkey
          rw [hextBytes] at hext
          rw [hpayload] at hmasked hfits
          exact ⟨b1, ext, masked, rfl, hext, hkey, hmasked, by dsimp only; omega, hlen, rfl⟩

end

/-- The bytes of a mask key, as DEC_MASKKEY packs them (R30, R169). -/
theorem readKey_packed {s : State} {k : Nat} {key : MaskKey} (h : s.readKey k = .ok key) {j : Nat} (hj : j < 4) :
    Memory.read s.inBuf (k + j) = some (key.toWord.extractLsb' (8 * (3 - j)) 8) := by
  have hbyte := key.byte_eq_extract j
  rw [Nat.mod_eq_of_lt hj] at hbyte
  obtain ⟨h0, h1, h2, h3⟩ := readKey_ok h
  rw [← hbyte]
  interval_cases j
  · exact h0
  · exact h1
  · exact h2
  · exact h3

/-- Settles O49: the registers and OUT_BUF hold what DecodeCore read, and its length fits 32 bits. -/
theorem decodedOutputIsUnmaskedBytewise : Obligations.DecodedOutputIsUnmaskedBytewise := by
  intro s t h hok
  obtain ⟨h6, d, hd, hres, rfl⟩ := decodeChunk_ok h hok
  obtain ⟨hopc, hpay, hchunk, -⟩ := (decodeText_ok h6 hd).of_ok hres
  obtain ⟨b1, ext, masked, hb1, hext, hkey, hmasked, hinside, hlen, hunmask⟩ := decodeText_ok_reads hd hres
  obtain ⟨hextLength, hextBytes⟩ := (readInSlice_ok_iff ..).1 hext
  obtain ⟨hmaskedLength, hmaskedBytes⟩ := (readInSlice_ok_iff ..).1 hmasked
  have hout : (s.finishDecode d).outLen.toNat = d.len.toNat := by
    rw [State.finishDecode_outLen, if_pos hres, BitVec.toNat_setWidth]
    exact Nat.mod_eq_of_lt (by omega)
  have hdecLen : (s.finishDecode d).decLen = d.len := by
    rw [State.decLen, State.finishDecode_decLenHi, State.finishDecode_decLenLo, if_pos hres, if_pos hres, len_halves]
  rw [hout, hdecLen, State.finishDecode_decOpcode, State.finishDecode_decMaskKey, if_pos hres,
    State.finishDecode_outBuf, if_pos hres]
  refine ⟨hopc, rfl, hchunk, b1, hb1, hinside, ⟨ext, hextLength, hextBytes, hlen⟩, fun j hj => readKey_packed hkey hj,
    fun i hi => ?_⟩
  have hi' : i < masked.length := hmaskedLength.symm ▸ hi
  refine ⟨masked[i], (hmaskedBytes i hi).trans (List.getElem?_eq_getElem hi'), ?_⟩
  rw [Memory.read_writeBytes_zero, if_pos (hpay.symm ▸ hi), hunmask, unmask_getElem?, List.getElem?_eq_getElem hi',
    ← MaskKey.byte_eq_extract]
  rfl

/-! ### The results of a written chunk (R173) -/

theorem DecodedOk.res_cases {s : State} {d : Decoded} (h : DecodedOk s d) :
    d.res = .ok ∨ d.res = .closeSignal ∨ d.res = .ignored ∨ d.res = .truncatedFrame ∨
      d.res = .unmaskedClientFrame := by
  rcases h with ⟨h, -⟩ | ⟨-, ⟨h, -⟩ | ⟨h, -⟩ | ⟨h, -⟩ | ⟨h, -⟩⟩ <;> simp [h]

/-- Settles O51: DecodeCore returns, and FEED moves only the session of its answer. -/
theorem everyWrittenChunkDecodesToOneOfFiveResults :
    Obligations.EveryWrittenChunkDecodesToOneOfFiveResults := by
  intro s hfit hw
  obtain ⟨d, hd, hdecode⟩ := decodeChunk_total hfit hw
  have hres := hd.res_cases
  refine ⟨⟨_, hdecode, ?_, by simp, by simp⟩, fun hs => ?_⟩
  · rwa [State.finishDecode_status]
  · refine ⟨_, (execFeed_opened hs).trans (congrArg closeOnResult hdecode), ?_, by simp⟩
    rwa [State.closeOnResult_status, State.finishDecode_status]

/-! ### Where the decode of an unwritten chunk stops (R274) -/

section
variable {s : State} {i : Nat}

/-- FEED in an open session stops where DECODE does. -/
theorem decodeStopsAt_of_faults (hdecode : decodeChunk s = .fault (.unwrittenInput i))
    (htext : i ≠ 0 → ∀ fin rsv, execText fin rsv s = .fault (.unwrittenInput i)) : s.decodeStopsAt i :=
  ⟨hdecode, fun hs => (execFeed_opened hs).trans (congrArg closeOnResult hdecode), htext⟩

/-- On a Text frame DECODE and TEXT stop where DecodeCore does from byte 1 on. -/
theorem decodeStopsAt_of_decodeText {b0 : Byte} (hfit : s.inLen.toNat ≤ s.cfg.bufCap) (h6 : 6 ≤ s.inLen.toNat)
    (hb0 : Memory.read s.inBuf 0 = some b0) (hop : b0.toNat % 16 = 1)
    (h : decodeText s s.inLen.toNat = .error (.unwrittenInput i)) : s.decodeStopsAt i := by
  refine decodeStopsAt_of_faults ?_ fun _ fin rsv => ?_
  · rw [decodeChunk_text hfit h6 hb0 hop, h]; rfl
  · rw [execText_fits hfit h6, h]; rfl

theorem ne_of_firstUnwritten {j : Nat} {b : Byte} (hi : s.firstUnwritten i) (hb : Memory.read s.inBuf j = some b) :
    i ≠ j := by
  rintro rfl
  exact absurd (hi.1.symm.trans hb) nofun

/-- A slice below the first unwritten byte is read. -/
theorem readInSlice_written (hi : s.firstUnwritten i) : ∀ {n a : Nat}, a + n ≤ i →
    ∃ bs, s.readInSlice a n = .ok bs
  | 0, _, _ => ⟨[], rfl⟩
  | n + 1, a, h => by
    obtain ⟨b, hb⟩ := Option.isSome_iff_exists.1 (hi.2 a (by omega))
    obtain ⟨bs, hbs⟩ := readInSlice_written hi (n := n) (a := a + 1) (by omega)
    exact ⟨b :: bs, by rw [State.readInSlice, (readIn_ok_iff s a b).2 hb, hbs]⟩

/-- A mask key below the first unwritten byte is read. -/
theorem readKey_written (hi : s.firstUnwritten i) {k : Nat} (h : k + 4 ≤ i) : ∃ key, s.readKey k = .ok key := by
  have hread : ∀ j, j < i → ∃ b, s.readIn j = .ok b := fun j hj =>
    (Option.isSome_iff_exists.1 (hi.2 j hj)).imp fun _ => (readIn_ok_iff ..).2
  obtain ⟨k0, h0⟩ := hread k (by omega)
  obtain ⟨k1, h1⟩ := hread (k + 1) (by omega)
  obtain ⟨k2, h2⟩ := hread (k + 2) (by omega)
  obtain ⟨k3, h3⟩ := hread (k + 3) (by omega)
  exact ⟨⟨k0, k1, k2, k3⟩, by rw [State.readKey, h0, h1, h2, h3]; rfl⟩

theorem decodeText_unwritten_byte1 (hi : s.firstUnwritten 1) (n : Nat) :
    decodeText s n = .error (.unwrittenInput 1) := by
  unfold decodeText
  rw [readIn_none hi.1]
  rfl

theorem decodePayload_unwritten_key {n : Nat} {f : LenForm} {len : BitVec 64} (hi : s.firstUnwritten i)
    (hle : f.keyOffset ≤ i) (hlt : i < f.keyOffset + 4) :
    decodePayload s n f len = .error (.unwrittenInput i) := by
  unfold decodePayload
  rw [readKey_unwritten hi hle hlt]
  rfl

theorem decodePayload_unwritten_payload {n : Nat} {f : LenForm} {len : BitVec 64} (hi : s.firstUnwritten i)
    (hle : f.keyOffset + 4 ≤ i) (hlt : i < f.keyOffset + 4 + len.toNat) (hn : f.keyOffset + 4 + len.toNat ≤ n) :
    decodePayload s n f len = .error (.unwrittenInput i) := by
  obtain ⟨key, hkey⟩ := readKey_written hi hle
  unfold decodePayload
  rw [hkey]
  refine (if_neg (by omega)).trans ?_
  rw [readInSlice_unwritten hi hle hlt]
  rfl

variable {b1 : Byte} {n : Nat}

/-- The extended length and the mask key are read before the payload (R168, R169). -/
theorem decodeText_unwritten_header (hb1 : Memory.read s.inBuf 1 = some b1)
    (hm : s.cfg.checkMask = true → 128 ≤ b1.toNat) (hn : payloadOffset s.cfg.lenMode b1 ≤ n)
    (hi : s.firstUnwritten i) (h2 : 2 ≤ i) (hlt : i < payloadOffset s.cfg.lenMode b1) :
    decodeText s n = .error (.unwrittenInput i) := by
  obtain ⟨hkey, hext, h6⟩ := lenForm_offsets s.cfg.lenMode b1
  rw [decodeText_maskChecked n hb1 hm, if_neg (by omega)]
  by_cases hik : i < payloadOffset s.cfg.lenMode b1 - 4
  · rw [readInSlice_unwritten hi h2 (by omega)]
    rfl
  · obtain ⟨ext, hread⟩ := readInSlice_written hi (a := 2)
      (n := (lenForm s.cfg.lenMode (len7Field b1)).extBytes) (by omega)
    rw [hread]
    exact decodePayload_unwritten_key hi (by omega) (by omega)

/-- The payload is read last, and only where it lies in the chunk (R170, R171). -/
theorem decodeText_unwritten_payload {ext : List Byte} (hb1 : Memory.read s.inBuf 1 = some b1)
    (hm : s.cfg.checkMask = true → 128 ≤ b1.toNat)
    (hext : s.readInSlice 2 (payloadOffset s.cfg.lenMode b1 - 6) = .ok ext)
    (hn : payloadOffset s.cfg.lenMode b1 + textLength b1 ext ≤ n) (hi : s.firstUnwritten i)
    (hle : payloadOffset s.cfg.lenMode b1 ≤ i) (hlt : i < payloadOffset s.cfg.lenMode b1 + textLength b1 ext) :
    decodeText s n = .error (.unwrittenInput i) := by
  obtain ⟨hkey, hextBytes, h6⟩ := lenForm_offsets s.cfg.lenMode b1
  rw [← hextBytes] at hext
  have hlen := length_lenForm ((readInSlice_ok_iff ..).1 hext).1
  rw [decodeText_maskChecked n hb1 hm, if_neg (by omega), hext]
  exact decodePayload_unwritten_payload hi (by omega) (by omega) (by omega)

end

/-- Settles O59: byte 0, byte 1, the header and the payload, in the order in which they are read. -/
theorem unwrittenChunkByteStopsTheDecode : Obligations.UnwrittenChunkByteStopsTheDecode := by
  intro s hfit h6
  refine ⟨fun hi => ?byte0, fun b0 hb0 hop => ⟨fun hi => ?byte1, fun b1 hb1 hm => ?rest⟩⟩
  case byte0 =>
    refine decodeStopsAt_of_faults ((withChunk_fits hfit h6).trans ?_) fun hne => absurd rfl hne
    rw [readIn_none hi.1]
    rfl
  case byte1 => exact decodeStopsAt_of_decodeText hfit h6 hb0 hop (decodeText_unwritten_byte1 hi _)
  case rest =>
    intro p hp
    have header : ∀ i, i < p → s.firstUnwritten i → s.decodeStopsAt i := by
      intro i hlt hi
      have h0 := ne_of_firstUnwritten hi hb0
      have h1 := ne_of_firstUnwritten hi hb1
      exact decodeStopsAt_of_decodeText hfit h6 hb0 hop (decodeText_unwritten_header hb1 hm hp hi (by omega) hlt)
    refine ⟨header, fun ext hlen hread hinside i hlt hi => ?_⟩
    by_cases hip : i < p
    · exact header i hip hi
    · have hext := (readInSlice_ok_iff ..).2 ⟨hlen, hread⟩
      exact decodeStopsAt_of_decodeText hfit h6 hb0 hop
        (decodeText_unwritten_payload hb1 hm hext hinside hi (by omega) hlt)

end Sys2Proof.Machine
end

section
/-! PROOF. SIGN, ENCODE, UPGRADE with a key and TEXT_OUT stop at the first unwritten byte of their input (R274): O58. -/

namespace Sys2Proof.Machine

open Sys2Proof

section
variable {s : State} {i : Nat}

theorem readInput_unwritten (hi : s.firstUnwritten i) (hlt : i < s.inLen.toNat) :
    s.readInput = .error (.unwrittenInput i) :=
  readInSlice_unwritten hi (Nat.zero_le i) (by omega)

theorem emitTextFrame_unwritten {l : Nat} (hi : s.firstUnwritten i) (hl : l ≤ 125) (hlt : i < l) :
    emitTextFrame s l = .fault (.unwrittenInput i) := by
  unfold emitTextFrame
  rw [if_neg (by omega), readInSlice_unwritten hi (Nat.zero_le i) (by omega)]
  rfl

theorem execSign_unwritten (hfit : s.inLen.toNat ≤ s.cfg.bufCap) (hi : s.firstUnwritten i)
    (hlt : i < s.inLen.toNat) : execSign s = .fault (.unwrittenInput i) := by
  unfold execSign
  rw [checkLength_fits hfit, readInput_unwritten hi hlt]
  rfl

theorem execUpgrade_unwritten (hs : s.session = .handshaking) (hfit : s.inLen.toNat ≤ s.cfg.bufCap)
    (hi : s.firstUnwritten i) (hlt : i < s.inLen.toNat) : execUpgrade true s = .fault (.unwrittenInput i) := by
  unfold execUpgrade
  rw [if_neg (not_not.2 hs), if_neg (by decide), checkLength_fits hfit, readInput_unwritten hi hlt]
  rfl

end

/-- Settles O58: each command reads its input in one slice from index 0 on, after its pre-checks. -/
theorem unwrittenInputStopsTheCommand : Obligations.UnwrittenInputStopsTheCommand := by
  intro s i hi
  refine ⟨fun hfit hlt => ⟨execSign_unwritten hfit hi hlt, fun hshort => ?_, fun hs =>
    execUpgrade_unwritten hs hfit hi hlt⟩, fun l hshort hlt => emitTextFrame_unwritten hi hshort hlt⟩
  exact (checkLength_fits hfit).trans (emitTextFrame_unwritten hi hshort hlt)

end Sys2Proof.Machine
end

section
/-! PROOF. Where the output of an UPGRADE finishing OK has the token and the greeting frame (R204, R205): O54. -/

namespace Sys2Proof.Machine

open Sys2Proof

/-- Settles O54: an UPGRADE that finishes OK wrote the header of its key and the greeting frame. -/
theorem upgradeOutputLayout : Obligations.UpgradeOutputLayout := by
  intro s t key hwf hkey h hok
  obtain ⟨hgreeting, -⟩ := Config.wf_bounds hwf
  rcases execUpgrade_next h with ⟨r, hr, rfl⟩ | ⟨-, -, -, key', hkey', rfl⟩
  · rw [State.finishError_status] at hok
    subst hok; simp at hr
  · obtain rfl := inputIs_unique hkey hkey'
    have hheader := upgradeHeader_length (acceptToken_length key)
    obtain ⟨htoken, h130, h131, hframe⟩ := read_upgradeOutput s.outBuf (g := s.cfg.greeting) hheader
    dsimp only [State.finishOutput_auxLen, State.finishOutput_outLen, State.finishOutput_outBuf]
    refine ⟨rfl, ?outLen, fun j hj => ?token, h130, h131, hframe⟩
    case outLen =>
      rw [List.length_append, hheader, textFrame_length, BitVec.toNat_ofNat]
      omega
    case token => exact (htoken (98 + j) (by omega)).trans (upgradeHeader_token (acceptToken_length key) hj)

end Sys2Proof.Machine
end

section
/-! PROOF. The result codes (R240), and the one result of a reserved command word (R72): O20, O28. -/

namespace Sys2Proof.Machine

open Sys2Proof

/-- The result of a code; no command writes the codes 11 to 15 (R240). -/
def Result.ofCode (c : BitVec 4) : Result :=
  [.idle, .ok, .closeSignal, .ignored, .truncatedFrame, .payloadTooLong, .missingKey, .unmaskedClientFrame, .badState,
    .badCommand, .badLength].getD c.toNat .idle

theorem Result.ofCode_code (r : Result) : Result.ofCode r.code = r := by
  cases r <;> rfl

/-- Settles O20: a result is read back from its code. -/
theorem resultCodes : Obligations.ResultCodes :=
  ⟨rfl, rfl, rfl, rfl, rfl, rfl, rfl, rfl, rfl, rfl, rfl,
    fun _ _ h => Function.LeftInverse.injective Result.ofCode_code h⟩

/-- Settles O28: the fields of the word are not looked at. -/
theorem reservedCommandWritesBadCommand : Obligations.ReservedCommandWritesBadCommand :=
  fun _ _ _ _ _ => rfl

end Sys2Proof.Machine
end

section
/-! PROOF. Instances share no state (R252): O57. -/

namespace Sys2Proof.Machine

open Sys2Proof

/-- What a step at index `k` can do: nothing where no state stands there, or a step of that state in its place. -/
theorem stepAt_next_iff {sys sys' : System} {k : Nat} :
    sys.stepAt k = .next sys' ↔
      (sys[k]? = none ∧ sys' = sys) ∨ ∃ s s', sys[k]? = some s ∧ step s = .next s' ∧ sys' = sys.set k s' := by
  unfold System.stepAt
  cases sys[k]? with
  | none => simp [eq_comm]
  | some s => cases hs : step s <;> simp [hs, eq_comm]

/-- Settles O57: a step at index `k` replaces the state there alone, whatever else is in the system. -/
theorem instancesAreIsolated : Obligations.InstancesAreIsolated := by
  intro sys sys' k h
  rcases stepAt_next_iff.1 h with ⟨hnone, rfl⟩ | ⟨s, s', hsome, hstep, rfl⟩
  · exact ⟨rfl, fun _ _ => rfl, fun other ho => ⟨other, stepAt_next_iff.2 (.inl ⟨ho.trans hnone, rfl⟩), ho⟩⟩
  · refine ⟨List.length_set, fun j hj => List.getElem?_set_ne hj.symm, fun other ho => ?_⟩
    have hother := ho.trans hsome
    refine ⟨other.set k s', stepAt_next_iff.2 (.inr ⟨s, s', hother, hstep, rfl⟩), ?_⟩
    have hk : ∀ sys : System, sys[k]? = some s → (sys.set k s')[k]? = some s' := fun sys h => by
      rw [List.getElem?_set_self (List.getElem?_eq_some_iff.1 h).1]
    rw [hk other hother, hk sys hsome]

end Sys2Proof.Machine
end
